-- ==== Sys2Proof/Word.lean ====
section
/-! DEFINITION. Words and bytes (00_scope.md R11): a Word is an unsigned 16-bit value, a Byte an unsigned 8-bit value. -/

namespace Sys2Proof

/-- R11: a 16-bit word, the width of every register, memory location and instruction.
`+` and `-` on words wrap modulo 2^16. -/
abbrev Word := BitVec 16

/-- R11: an 8-bit value, the unit of the console. -/
abbrev Byte := BitVec 8

end Sys2Proof
end

