-- ==== Sys2Proof/Syntax.lean ====
section
/-! DEFINITION. The instructions: one constructor for each of the 19 rows of spec/opcode_table.json.
Operands are the fields of the formats R102 to R112 at their own widths. The bits that no handler reads
(R120, and bits 11:0 of RTI and RES, R112) are no operands, so two words that differ only there are one
instruction. -/

namespace Sys2Proof

/-- R31: the eight general registers a 3-bit register field selects. -/
inductive Reg where
  | r0 | r1 | r2 | r3 | r4 | r5 | r6 | r7
deriving DecidableEq, Repr

/-- R101: the instruction forms. -/
inductive Instr where
  /-- R150, F-BR. `cond` is inst[11:9]: bit 2 is n, bit 1 is z, bit 0 is p (R105). -/
  | br (cond : BitVec 3) (pcOffset9 : BitVec 9)
  /-- R130, F-OPR. -/
  | addReg (dr sr1 sr2 : Reg)
  /-- R131, F-OPI. -/
  | addImm (dr sr1 : Reg) (imm5 : BitVec 5)
  /-- R170, F-PC9. -/
  | ld (dr : Reg) (pcOffset9 : BitVec 9)
  /-- R190, F-PC9. -/
  | st (sr : Reg) (pcOffset9 : BitVec 9)
  /-- R154, F-JSR. -/
  | jsr (pcOffset11 : BitVec 11)
  /-- R155, F-JSRR. -/
  | jsrr (baseR : Reg)
  /-- R133, F-OPR. -/
  | andReg (dr sr1 sr2 : Reg)
  /-- R134, F-OPI. -/
  | andImm (dr sr1 : Reg) (imm5 : BitVec 5)
  /-- R172, F-BASE. -/
  | ldr (dr baseR : Reg) (offset6 : BitVec 6)
  /-- R192, F-BASE. -/
  | str (sr baseR : Reg) (offset6 : BitVec 6)
  /-- R250, F-NONE: reserved, always IllegalOpcode. -/
  | rti
  /-- R136, F-NOT. -/
  | not (dr sr1 : Reg)
  /-- R171, F-PC9. -/
  | ldi (dr : Reg) (pcOffset9 : BitVec 9)
  /-- R191, F-PC9. -/
  | sti (sr : Reg) (pcOffset9 : BitVec 9)
  /-- R152, F-JMP; RET is `jmp .r7` (R153). -/
  | jmp (baseR : Reg)
  /-- R251, F-NONE: reserved, always IllegalOpcode. -/
  | res
  /-- R173, F-PC9. -/
  | lea (dr : Reg) (pcOffset9 : BitVec 9)
  /-- R210, F-TRAP. -/
  | trap (trapvect8 : BitVec 8)
deriving DecidableEq, Repr

end Sys2Proof
end

