-- ==== Sys2Proof/WellFormed.lean ====
section
/-! DEFINITION. Which instructions the CORE has a handler for. Every operand has the width of its field, so no
operand can be out of range; what is left to check is R119 (the illegal opcodes RTI and RES) and R121 (the
trap vectors the CORE does not define). -/

namespace Sys2Proof

/-- R119, R121: not an illegal opcode, and for TRAP one of the six defined vectors 0x20 to 0x25.
An instruction that fails this check still decodes and still has a meaning: it enters Faulted (R261). -/
def Instr.wellFormed : Instr → Bool
  | .br _ _ => true
  | .addReg _ _ _ => true
  | .addImm _ _ _ => true
  | .ld _ _ => true
  | .st _ _ => true
  | .jsr _ => true
  | .jsrr _ => true
  | .andReg _ _ _ => true
  | .andImm _ _ _ => true
  | .ldr _ _ _ => true
  | .str _ _ _ => true
  | .rti => false
  | .not _ _ => true
  | .ldi _ _ => true
  | .sti _ _ => true
  | .jmp _ => true
  | .res => false
  | .lea _ _ => true
  | .trap v => decide (0x20 ≤ v.toNat ∧ v.toNat ≤ 0x25)

end Sys2Proof
end

