-- ==== Sys2Proof/Decode.lean ====
section
/-! DEFINITION. Decoding and encoding, from the formats R102 to R112 and the opcode map R101.
Decoding is total on all 65536 words (R118): RTI and RES are decoded to their own constructors, whose
meanings raise IllegalOpcode (R119). -/

namespace Sys2Proof

/-- R117: a 3-bit register field value r selects Rr. -/
def Reg.ofBits (b : BitVec 3) : Reg :=
  match b.toFin with
  | 0 => .r0
  | 1 => .r1
  | 2 => .r2
  | 3 => .r3
  | 4 => .r4
  | 5 => .r5
  | 6 => .r6
  | 7 => .r7

/-- R117: the field value that selects the register. -/
def Reg.toBits : Reg → BitVec 3
  | .r0 => 0#3
  | .r1 => 1#3
  | .r2 => 2#3
  | .r3 => 3#3
  | .r4 => 4#3
  | .r5 => 5#3
  | .r6 => 6#3
  | .r7 => 7#3

/-- R101: the opcode, inst[15:12]. -/
def fieldOpcode (w : Word) : BitVec 4 := w.extractLsb' 12 4

/-- R102 to R110: DR, or SR of a store, inst[11:9]. -/
def fieldDR (w : Word) : Reg := Reg.ofBits (w.extractLsb' 9 3)

/-- R102 to R110: SR1, or BaseR, inst[8:6]. -/
def fieldBase (w : Word) : Reg := Reg.ofBits (w.extractLsb' 6 3)

/-- R102: SR2, inst[2:0]. -/
def fieldSR2 (w : Word) : Reg := Reg.ofBits (w.extractLsb' 0 3)

/-- R105: cond, inst[11:9]. -/
def fieldCond (w : Word) : BitVec 3 := w.extractLsb' 9 3

/-- R103, R113: imm5, inst[4:0]. -/
def fieldImm5 (w : Word) : BitVec 5 := w.extractLsb' 0 5

/-- R110, R114: offset6, inst[5:0]. -/
def fieldOffset6 (w : Word) : BitVec 6 := w.extractLsb' 0 6

/-- R109, R115: PCoffset9, inst[8:0]. -/
def fieldPcOffset9 (w : Word) : BitVec 9 := w.extractLsb' 0 9

/-- R107, R115: PCoffset11, inst[10:0]. -/
def fieldPcOffset11 (w : Word) : BitVec 11 := w.extractLsb' 0 11

/-- R111, R116: trapvect8, inst[7:0]. -/
def fieldTrapvect8 (w : Word) : BitVec 8 := w.extractLsb' 0 8

/-- R101, R118, R303: the instruction a word stands for. The four Booleans are inst[15:12]; in opcodes 0001
and 0101 inst[5] is imm_flag, in 0100 inst[11] selects JSR or JSRR (R117). -/
def decode (w : Word) : Instr :=
  match w.getLsbD 15, w.getLsbD 14, w.getLsbD 13, w.getLsbD 12 with
  | false, false, false, false => .br (fieldCond w) (fieldPcOffset9 w)
  | false, false, false, true =>
    if w.getLsbD 5 then .addImm (fieldDR w) (fieldBase w) (fieldImm5 w)
    else .addReg (fieldDR w) (fieldBase w) (fieldSR2 w)
  | false, false, true, false => .ld (fieldDR w) (fieldPcOffset9 w)
  | false, false, true, true => .st (fieldDR w) (fieldPcOffset9 w)
  | false, true, false, false =>
    if w.getLsbD 11 then .jsr (fieldPcOffset11 w) else .jsrr (fieldBase w)
  | false, true, false, true =>
    if w.getLsbD 5 then .andImm (fieldDR w) (fieldBase w) (fieldImm5 w)
    else .andReg (fieldDR w) (fieldBase w) (fieldSR2 w)
  | false, true, true, false => .ldr (fieldDR w) (fieldBase w) (fieldOffset6 w)
  | false, true, true, true => .str (fieldDR w) (fieldBase w) (fieldOffset6 w)
  | true, false, false, false => .rti
  | true, false, false, true => .not (fieldDR w) (fieldBase w)
  | true, false, true, false => .ldi (fieldDR w) (fieldPcOffset9 w)
  | true, false, true, true => .sti (fieldDR w) (fieldPcOffset9 w)
  | true, true, false, false => .jmp (fieldBase w)
  | true, true, false, true => .res
  | true, true, true, false => .lea (fieldDR w) (fieldPcOffset9 w)
  | true, true, true, true => .trap (fieldTrapvect8 w)

/-- The word of an instruction, from the formats R102 to R112. Bits that no handler reads are written 0
(log entry 10). -/
def encode : Instr → Word
  | .br c o => 0b0000#4 ++ c ++ o
  | .addReg d a b => 0b0001#4 ++ d.toBits ++ a.toBits ++ 0b000#3 ++ b.toBits
  | .addImm d a i => 0b0001#4 ++ d.toBits ++ a.toBits ++ 0b1#1 ++ i
  | .ld d o => 0b0010#4 ++ d.toBits ++ o
  | .st r o => 0b0011#4 ++ r.toBits ++ o
  | .jsr o => 0b01001#5 ++ o
  | .jsrr b => 0b0100000#7 ++ b.toBits ++ 0#6
  | .andReg d a b => 0b0101#4 ++ d.toBits ++ a.toBits ++ 0b000#3 ++ b.toBits
  | .andImm d a i => 0b0101#4 ++ d.toBits ++ a.toBits ++ 0b1#1 ++ i
  | .ldr d b o => 0b0110#4 ++ d.toBits ++ b.toBits ++ o
  | .str r b o => 0b0111#4 ++ r.toBits ++ b.toBits ++ o
  | .rti => 0x8000#16
  | .not d a => 0b1001#4 ++ d.toBits ++ a.toBits ++ 0#6
  | .ldi d o => 0b1010#4 ++ d.toBits ++ o
  | .sti r o => 0b1011#4 ++ r.toBits ++ o
  | .jmp b => 0b1100000#7 ++ b.toBits ++ 0#6
  | .res => 0xD000#16
  | .lea d o => 0b1110#4 ++ d.toBits ++ o
  | .trap v => 0xF0#8 ++ v

/-- spec/opcode_table.json: the mask of the instruction's row, the bits that select the row. -/
def Instr.rowMask : Instr → Word
  | .br _ _ => 0xF000#16
  | .addReg _ _ _ => 0xF020#16
  | .addImm _ _ _ => 0xF020#16
  | .ld _ _ => 0xF000#16
  | .st _ _ => 0xF000#16
  | .jsr _ => 0xF800#16
  | .jsrr _ => 0xF800#16
  | .andReg _ _ _ => 0xF020#16
  | .andImm _ _ _ => 0xF020#16
  | .ldr _ _ _ => 0xF000#16
  | .str _ _ _ => 0xF000#16
  | .rti => 0xF000#16
  | .not _ _ => 0xF000#16
  | .ldi _ _ => 0xF000#16
  | .sti _ _ => 0xF000#16
  | .jmp _ => 0xF000#16
  | .res => 0xF000#16
  | .lea _ _ => 0xF000#16
  | .trap _ => 0xF000#16

/-- spec/opcode_table.json: the match value of the instruction's row under its mask. -/
def Instr.rowMatch : Instr → Word
  | .br _ _ => 0x0000#16
  | .addReg _ _ _ => 0x1000#16
  | .addImm _ _ _ => 0x1020#16
  | .ld _ _ => 0x2000#16
  | .st _ _ => 0x3000#16
  | .jsr _ => 0x4800#16
  | .jsrr _ => 0x4000#16
  | .andReg _ _ _ => 0x5000#16
  | .andImm _ _ _ => 0x5020#16
  | .ldr _ _ _ => 0x6000#16
  | .str _ _ _ => 0x7000#16
  | .rti => 0x8000#16
  | .not _ _ => 0x9000#16
  | .ldi _ _ => 0xA000#16
  | .sti _ _ => 0xB000#16
  | .jmp _ => 0xC000#16
  | .res => 0xD000#16
  | .lea _ _ => 0xE000#16
  | .trap _ => 0xF000#16

/-- R102 to R112, R120: the bits of a word that the instruction's format names, opcode and fields. -/
def Instr.namedBits : Instr → Word
  | .br _ _ => 0xFFFF#16
  | .addReg _ _ _ => 0xFFE7#16
  | .addImm _ _ _ => 0xFFFF#16
  | .ld _ _ => 0xFFFF#16
  | .st _ _ => 0xFFFF#16
  | .jsr _ => 0xFFFF#16
  | .jsrr _ => 0xF9C0#16
  | .andReg _ _ _ => 0xFFE7#16
  | .andImm _ _ _ => 0xFFFF#16
  | .ldr _ _ _ => 0xFFFF#16
  | .str _ _ _ => 0xFFFF#16
  | .rti => 0xF000#16
  | .not _ _ => 0xFFC0#16
  | .ldi _ _ => 0xFFFF#16
  | .sti _ _ => 0xFFFF#16
  | .jmp _ => 0xF1C0#16
  | .res => 0xF000#16
  | .lea _ _ => 0xFFFF#16
  | .trap _ => 0xF0FF#16

/-- The instruction the decoder reads from an instruction word given as a number: bit 0 of `w` is bit 0 of
the word, and bits from `nbits` up are 0. -/
def decodeTableWord (nbits w : Nat) : Option Instr :=
  some (decode (BitVec.ofNat 16 (w % 2 ^ nbits)))

end Sys2Proof
end

