-- ==== Sys2Proof/Config.lean ====
section
/-! DEFINITION. What an implementation fixes (00_scope.md R8) and the parameters the spec leaves open (R9).
An open parameter is a constant without a body: no proof can see its value. -/

namespace Sys2Proof

/-- R8: the default start address, the reset value of PC. -/
def Config.resetPc : Word := 0x3000#16

/-- R8, R70: the number of words of memory, the whole 16-bit address space. -/
def Config.memoryWords : Nat := 65536

/-- R9, R218 (92 D8, OPEN): IN_PROMPT, the bytes IN writes before it reads. Log entry 7. -/
opaque Config.inPrompt : List Byte

/-- R9, R222 (92 D9, OPEN): HALT_NOTICE, the bytes HALT writes. Log entry 7. -/
opaque Config.haltNotice : List Byte

/-- R9, R47 (92 D6, OPEN): the infinite console inputs. `Config.inputByte id n` is byte n, counted from 0, of the
infinite INPUT that `id` names. No proof can see a byte, so what is shown of one holds of every infinite sequence.
Log entry 2. -/
opaque Config.inputByte : Nat → Nat → Byte

/-- R48 (92 D13, OPEN): FAULT_EXIT_CODE less one. Log entry 8. -/
opaque Config.faultExitCodeLessOne : Nat

/-- R48 (92 D13, OPEN): FAULT_EXIT_CODE, any non-zero value. Log entry 8. -/
def Config.faultExitCode : Nat := Config.faultExitCodeLessOne + 1

end Sys2Proof
end

