-- ==== Sys2Proof/Machine/State.lean ====
section
/-! DEFINITION. The state of the CORE (10_state.md) as plain data, its value at reset (R45), and the reasons a
step could stop. -/

namespace Sys2Proof.Machine

open Sys2Proof

/-- R31: the eight general registers R0 to R7, 16 bits each. None is hardwired. -/
structure Gpr where
  r0 : Word
  r1 : Word
  r2 : Word
  r3 : Word
  r4 : Word
  r5 : Word
  r6 : Word
  r7 : Word
deriving DecidableEq, Repr

/-- R41, R70: the memory of 65536 words, as a list of bytes in canonical form: addresses strictly rising, no
entry equal to what an unlisted address reads as. The word at address a has its low byte at 2a and its high
byte at 2a+1. No access is narrower than a word, so this order cannot be observed (R75, log entry 1). -/
abbrev Memory := List Host.Cell

/-- R261, R264: what a fatal error records: its kind, the address of the instruction, and the opcode or the
trap vector. -/
inductive FaultRecord where
  /-- R262: RTI or RES was decoded at `addr`. -/
  | illegalOpcode (addr : Word) (op : BitVec 4)
  /-- R263: the TRAP at `addr` named a vector outside 0x20 to 0x25. -/
  | unknownTrapVector (addr : Word) (vector : BitVec 8)
deriving DecidableEq, Repr

/-- R44: the run state. -/
inductive Run where
  | running
  | halted
  | faulted (record : FaultRecord)
deriving DecidableEq, Repr

/-- R212, R217, R276: a service routine that has begun and not ended when a step is over: GETC or IN waiting for
the host's answer, or PUTS or PUTSP in a string that has no end, about to read MEM[addr] (log entries 3
and 4). -/
inductive Routine where
  | getc
  | inp
  | puts (addr : Word)
  | putsp (addr : Word)
deriving DecidableEq, Repr

/-- R47 (92 D6): what follows the bytes of a console input. -/
inductive InputTail where
  /-- R212: no answer yet, so a read waits. -/
  | silent
  /-- R214: end of input, for good. -/
  | ended
  /-- 92 D6: bytes without end, those of the infinite INPUT that `id` names from byte `position` on (log entry 2). -/
  | stream (id position : Nat)
deriving DecidableEq, Repr

/-- R47, R214 (92 D6): the host's answers to the console reads still to come, a finite or an infinite sequence: the
bytes at its front, oldest first, and what follows them. -/
structure ConsoleInput where
  bytes : List Byte
  tail : InputTail
deriving DecidableEq, Repr

/-- 10_state.md section 1: the state of the CORE. `routine` and `input` are the model's own fields, for what
R212, R217 and R47 imply (log entries 2, 3 and 4). -/
@[ext]
structure State where
  /-- R31: R0 to R7. -/
  gpr : Gpr
  /-- R33: the word address of the next instruction to fetch. -/
  pc : Word
  /-- R36: the condition flags, POS = 1, ZRO = 2 or NEG = 4. -/
  cond : Word
  /-- R41: the memory. -/
  mem : Memory
  /-- R44: Running, Halted or Faulted. -/
  run : Run
  /-- R47: the bytes written to the console, oldest first. -/
  out : List Byte
  /-- R212, R217: the service routine in progress, none between instructions. -/
  routine : Option Routine
  /-- R47: the host's answers to console reads. -/
  input : ConsoleInput
deriving DecidableEq, Repr

/-- R16, R36: the three values COND can hold. -/
def condPos : Word := 0x0001#16

/-- R16, R36: the ZRO flag. -/
def condZro : Word := 0x0002#16

/-- R16, R36: the NEG flag. -/
def condNeg : Word := 0x0004#16

/-- R45: every field at its reset value, before the loader's image is applied. The spec gives each value but
those of the model's own fields: no routine is in progress (log entry 3), and the console has no byte and
reports end of input (log entry 2). -/
def State.reset : State where
  gpr := ⟨0, 0, 0, 0, 0, 0, 0, 0⟩
  pc := Config.resetPc
  cond := condZro
  mem := []
  run := .running
  out := []
  routine := none
  input := ⟨[], .ended⟩

/-- Why the machine could stop outside the spec's own run states. The fatal errors the spec gives its
instructions are no faults here: they are next states whose run state is Faulted (log entry 6). -/
inductive Fault where
  /-- R42, R261 (92 D3): a register-file slot outside 0 to 9 was asked for. Only `State.readSlot` and
  `State.writeSlot` raise it. No step does, since every register field is 3 bits wide. Safe. -/
  | invalidRegister (index : Nat)
deriving DecidableEq, Repr

/-- Why an instruction has no meaning in the model. -/
inductive Refusal where
  /-- Raised by an arm of `exec` whose instruction is not modelled yet. There is no such arm. Safe. -/
  | notModelled (mnemonic : String)
deriving DecidableEq, Repr

/-- What a meaning answers. -/
abbrev Result := Host.Outcome State Fault Refusal

end Sys2Proof.Machine
end

