-- ==== Sys2Proof/Machine/Ops.lean ====
section
/-! DEFINITION. The named operations over memory, registers, the console and the run state. Every read and
write of a meaning goes through one of them. -/

namespace Sys2Proof.Machine

open Sys2Proof

/-! ### Memory (20_memory.md) -/

/-- R74: the low byte of a word. -/
def lowByte (w : Word) : Byte := w.extractLsb' 0 8

/-- R74: the high byte of a word. -/
def highByte (w : Word) : Byte := w.extractLsb' 8 8

/-- R45, R71: what an address that nothing has written reads as ("zero-initialized otherwise"). -/
def Memory.unlisted : Byte := 0#8

/-- The place of the low byte of the word at `a` in the byte list. -/
def lowKey (a : Word) : Nat := 2 * a.toNat

/-- The place of the high byte of the word at `a` in the byte list. -/
def highKey (a : Word) : Nat := 2 * a.toNat + 1

/-- One byte of the byte list. -/
def Memory.readByte : Memory → Nat → Byte
  | [], _ => Memory.unlisted
  | (k, b) :: rest, a => if k = a then b else Memory.readByte rest a

/-- Replaces one byte and keeps the canonical form: the value an unlisted address reads as is not listed. -/
def Memory.writeByte : Memory → Nat → Byte → Memory
  | [], a, v => if v = Memory.unlisted then [] else [(a, v)]
  | (k, b) :: rest, a, v =>
    if a < k then
      if v = Memory.unlisted then (k, b) :: rest else (a, v) :: (k, b) :: rest
    else if a = k then
      if v = Memory.unlisted then rest else (a, v) :: rest
    else (k, b) :: Memory.writeByte rest a v

/-- R71: MemRead(a, 1), total. -/
def Memory.read (m : Memory) (a : Word) : Word := m.readByte (highKey a) ++ m.readByte (lowKey a)

/-- R72: MemWrite(a, 1, v), an unconditional overwrite of one word. -/
def Memory.write (m : Memory) (a v : Word) : Memory :=
  (m.writeByte (lowKey a) (lowByte v)).writeByte (highKey a) (highByte v)

/-- The canonical form: addresses strictly rising and inside the 65536 words, no entry that an unlisted
address would read as. -/
def Memory.wf (m : Memory) : Bool :=
  decide (m.Pairwise (fun c d => c.1 < d.1) ∧ ∀ c ∈ m, c.2 ≠ Memory.unlisted ∧ c.1 < 2 * Config.memoryWords)

/-! ### Registers (10_state.md) -/

/-- R14, R31: x[r]. -/
def Gpr.read (g : Gpr) : Reg → Word
  | .r0 => g.r0
  | .r1 => g.r1
  | .r2 => g.r2
  | .r3 => g.r3
  | .r4 => g.r4
  | .r5 => g.r5
  | .r6 => g.r6
  | .r7 => g.r7

/-- R14, R31: x[r] <- v, all 16 bits. -/
def Gpr.write (g : Gpr) (r : Reg) (v : Word) : Gpr :=
  match r with
  | .r0 => { g with r0 := v }
  | .r1 => { g with r1 := v }
  | .r2 => { g with r2 := v }
  | .r3 => { g with r3 := v }
  | .r4 => { g with r4 := v }
  | .r5 => { g with r5 := v }
  | .r6 => { g with r6 := v }
  | .r7 => { g with r7 := v }

/-- R14: x[r] of a state. -/
def State.reg (s : State) (r : Reg) : Word := s.gpr.read r

/-- R14: x[r] <- v. -/
def State.writeReg (s : State) (r : Reg) (v : Word) : State := { s with gpr := s.gpr.write r v }

/-- R14: PC <- target. -/
def State.setPc (s : State) (target : Word) : State := { s with pc := target }

/-- R36: COND <- v. Only `updateFlags` calls it, with a value of `setcc`. -/
def State.setCond (s : State) (v : Word) : State := { s with cond := v }

/-- R30 (92 D2): the register file by its numeric index: R0 to R7 are 0 to 7, PC is 8, COND is 9. Any other
index fails with InvalidRegister. No instruction can name an index (R35, R42). -/
def State.readSlot (s : State) (index : Nat) : Except Fault Word :=
  if index < 8 then .ok (s.reg (Reg.ofBits (BitVec.ofNat 3 index)))
  else if index = 8 then .ok s.pc
  else if index = 9 then .ok s.cond
  else .error (.invalidRegister index)

/-- R30 (92 D2): writing the register file by its numeric index. -/
def State.writeSlot (s : State) (index : Nat) (v : Word) : Except Fault State :=
  if index < 8 then .ok (s.writeReg (Reg.ofBits (BitVec.ofNat 3 index)) v)
  else if index = 8 then .ok (s.setPc v)
  else if index = 9 then .ok (s.setCond v)
  else .error (.invalidRegister index)

/-! ### Memory of a state, fetch -/

/-- R15: MemRead(a, 1). -/
def State.load (s : State) (a : Word) : Word := s.mem.read a

/-- R15: MemWrite(a, 1, v). -/
def State.store (s : State) (a v : Word) : State := { s with mem := s.mem.write a v }

/-- R302: the word at PC, read through the same memory as loads (R85). -/
def State.fetchWord (s : State) : Word := s.load s.pc

/-- R34, R302: the fetch increment, modulo 2^16. -/
def State.advancePc (s : State) : State := s.setPc (s.pc + 1#16)

/-! ### Console (R47) -/

/-- Sets the host's answers to console reads. -/
def State.setInput (s : State) (c : ConsoleInput) : State := { s with input := c }

/-- R17: ConsoleWrite of each byte in turn. -/
def State.consoleWrite (s : State) (bytes : List Byte) : State := { s with out := s.out ++ bytes }

/-- R221: ConsoleFlush changes no state. -/
def State.consoleFlush (s : State) : State := s

/-- R47, R214 (92 D6): the next answer of a console input, a byte or end of input, with the input that is left; none
where the host has not answered. After end of input every answer is end of input. -/
def ConsoleInput.next (c : ConsoleInput) : Option (Option Byte × ConsoleInput) :=
  match c.bytes, c.tail with
  | b :: rest, tail => some (some b, ⟨rest, tail⟩)
  | [], .stream id position => some (some (Config.inputByte id position), ⟨[], .stream id (position + 1)⟩)
  | [], .ended => some (none, ⟨[], .ended⟩)
  | [], .silent => none

/-- R47 (92 D6): the answer to the k-th read from now, counted from 0: the sequence INPUT that a console input stands
for. None where the host has not answered so far. -/
def ConsoleInput.answerAt (c : ConsoleInput) (k : Nat) : Option (Option Byte) :=
  match c.bytes[k]?, c.tail with
  | some b, _ => some (some b)
  | none, .stream id position => some (some (Config.inputByte id (position + (k - c.bytes.length))))
  | none, .ended => some none
  | none, .silent => none

/-- R17, R47, R214: ConsoleRead. `some (answer, t)` is the host's answer, a byte or end of input, and the state after
taking it. `none` says that the host has not answered. -/
def State.consoleRead (s : State) : Option (Option Byte × State) :=
  s.input.next.map fun (answer, c) => (answer, s.setInput c)

/-! ### Run state, faults, the link -/

/-- R44: run <- r. -/
def State.setRun (s : State) (r : Run) : State := { s with run := r }

/-- R212: notes which service routine is in progress. -/
def State.setRoutine (s : State) (r : Option Routine) : State := { s with routine := r }

/-- R17, R264: entering Faulted, the CORE's only exception. Nothing is saved to a register or to memory, no mode
changes, there is no handler: the run state takes the record and PC keeps the post-fetch value. There is no
return from it (R265): only a new run leaves Faulted. -/
def State.raise (s : State) (f : FaultRecord) : State := s.setRun (.faulted f)

/-- R17, R222: halt(). -/
def State.halt (s : State) : State := s.setRun .halted

/-- R32: the link write of JSR, JSRR and TRAP, x[7] <- PC. RET returns through it (R153). -/
def State.link (s : State) : State := s.writeReg .r7 s.pc

/-- R262: the address of the instruction that is executing, the post-fetch PC less 1, modulo 2^16. -/
def State.instrAddr (s : State) : Word := s.pc - 1#16

end Sys2Proof.Machine
end

