-- ==== Sys2Proof/Machine/Flags.lean ====
section
/-! DEFINITION. The condition flags (00_scope.md R16, 40_operate.md R137). -/

namespace Sys2Proof.Machine

open Sys2Proof

/-- R16: the condition value of a word: ZRO if it is 0, else NEG if bit 15 is set, else POS. -/
def setcc (v : Word) : Word :=
  if v = 0#16 then condZro
  else if v.getLsbD 15 then condNeg
  else condPos

/-- R137: update_flags(r), COND from the value the register now holds. -/
def State.updateFlags (s : State) (r : Reg) : State := s.setCond (setcc (s.reg r))

/-- R137, R138: the destination write of a flag-setting instruction and the flag update after it. -/
def State.writeRegFlags (s : State) (r : Reg) (v : Word) : State := (s.writeReg r v).updateFlags r

/-- R150: does BR with this cond field branch: (cond & COND) != 0. -/
def branchTaken (cond : BitVec 3) (flags : Word) : Bool := decide (cond.setWidth 16 &&& flags ≠ 0#16)

end Sys2Proof.Machine
end

