-- ==== Sys2Proof/Machine/Operands.lean ====
section
/-! DEFINITION. Operand forms and effective addresses (30_encoding.md section 3, 42_load.md section 1). -/

namespace Sys2Proof.Machine

open Sys2Proof

/-- R12: sext_N, for the widths 5, 6, 9 and 11: if the sign bit is 1, all-ones shifted left by N is ORed in. -/
def sext {n : Nat} (v : BitVec n) : Word :=
  if v.getLsbD (n - 1) then (0xFFFF#16 <<< n) ||| v.setWidth 16 else v.setWidth 16

/-- R13: zext_16 of a byte. -/
def zext16 (b : Byte) : Word := b.setWidth 16

/-- R73, R115: PC plus offset, from the post-fetch PC, modulo 2^16 (LD, LDI, LEA, ST, STI, BR, JSR). -/
def pcRelative {n : Nat} (offset : BitVec n) (s : State) : Word := s.pc + sext offset

/-- R73, R114: base plus offset, modulo 2^16 (LDR, STR). -/
def basePlusOffset (baseR : Reg) (offset6 : BitVec 6) (s : State) : Word := s.reg baseR + sext offset6

/-- R171, R191: memory indirect, the word found at PC plus offset (LDI, STI). -/
def indirect (pcOffset9 : BitVec 9) (s : State) : Word := s.load (pcRelative pcOffset9 s)

/-- R211: the service routine a vector selects, none for the 250 vectors that are not defined. -/
inductive Service where
  | getc
  | out
  | puts
  | inp
  | putsp
  | halt
deriving DecidableEq, Repr

/-- R116, R211: the six defined vectors, compared as unsigned 8-bit numbers. -/
def serviceOf (vector : BitVec 8) : Option Service :=
  match vector.toNat with
  | 0x20 => some .getc
  | 0x21 => some .out
  | 0x22 => some .puts
  | 0x23 => some .inp
  | 0x24 => some .putsp
  | 0x25 => some .halt
  | _ => none

end Sys2Proof.Machine
end

