-- ==== Sys2Proof/Machine/Control.lean ====
section
/-! DEFINITION. The control transfers BR, JMP, JSR and JSRR (41_control.md). The state a meaning takes is the one after
the fetch increment (R302). -/

namespace Sys2Proof.Machine

open Sys2Proof

/-- R150: BR. -/
def execBr (cond : BitVec 3) (pcOffset9 : BitVec 9) (s : State) : Result :=
  .next (if branchTaken cond s.cond then s.setPc (pcRelative pcOffset9 s) else s)

/-- R152: JMP; with BaseR = R7 it is RET (R153). -/
def execJmp (baseR : Reg) (s : State) : Result :=
  .next (s.setPc (s.reg baseR))

/-- R154: JSR. -/
def execJsr (pcOffset11 : BitVec 11) (s : State) : Result :=
  .next (s.link.setPc (pcRelative pcOffset11 s.link))

/-- R155, R156: JSRR. BaseR is read after R7 has been written, so JSRR R7 falls through. -/
def execJsrr (baseR : Reg) (s : State) : Result :=
  .next (s.link.setPc (s.link.reg baseR))

end Sys2Proof.Machine
end

