-- ==== Sys2Proof/Machine/Loads.lean ====
section
/-! DEFINITION. The loads LD, LDI and LDR, and LEA (42_load.md). The state a meaning takes is the one after the fetch
increment (R302). -/

namespace Sys2Proof.Machine

open Sys2Proof

/-- R170: LD. -/
def execLd (dr : Reg) (pcOffset9 : BitVec 9) (s : State) : Result :=
  .next (s.writeRegFlags dr (s.load (pcRelative pcOffset9 s)))

/-- R171: LDI, the pointer read and then the data read. -/
def execLdi (dr : Reg) (pcOffset9 : BitVec 9) (s : State) : Result :=
  .next (s.writeRegFlags dr (s.load (indirect pcOffset9 s)))

/-- R172: LDR. -/
def execLdr (dr baseR : Reg) (offset6 : BitVec 6) (s : State) : Result :=
  .next (s.writeRegFlags dr (s.load (basePlusOffset baseR offset6 s)))

/-- R173: LEA, no memory access; it sets the flags. -/
def execLea (dr : Reg) (pcOffset9 : BitVec 9) (s : State) : Result :=
  .next (s.writeRegFlags dr (pcRelative pcOffset9 s))

end Sys2Proof.Machine
end

