-- ==== Sys2Proof/Machine/Operate.lean ====
section
/-! DEFINITION. The operate instructions ADD, AND and NOT (40_operate.md). The state a meaning takes is the one after
the fetch increment (R302). -/

namespace Sys2Proof.Machine

open Sys2Proof

/-- R130: ADD, register mode. -/
def execAddReg (dr sr1 sr2 : Reg) (s : State) : Result :=
  .next (s.writeRegFlags dr (s.reg sr1 + s.reg sr2))

/-- R131: ADD, immediate mode. -/
def execAddImm (dr sr1 : Reg) (imm5 : BitVec 5) (s : State) : Result :=
  .next (s.writeRegFlags dr (s.reg sr1 + sext imm5))

/-- R133: AND, register mode. -/
def execAndReg (dr sr1 sr2 : Reg) (s : State) : Result :=
  .next (s.writeRegFlags dr (s.reg sr1 &&& s.reg sr2))

/-- R134: AND, immediate mode; the immediate is sign-extended first. -/
def execAndImm (dr sr1 : Reg) (imm5 : BitVec 5) (s : State) : Result :=
  .next (s.writeRegFlags dr (s.reg sr1 &&& sext imm5))

/-- R136: NOT, all 16 bits complemented. -/
def execNot (dr sr1 : Reg) (s : State) : Result :=
  .next (s.writeRegFlags dr (~~~(s.reg sr1)))

end Sys2Proof.Machine
end

