-- ==== Sys2Proof/Machine/Reserved.lean ====
section
/-! DEFINITION. The reserved opcodes RTI and RES (45_reserved.md): both take the fatal error IllegalOpcode (R262). -/

namespace Sys2Proof.Machine

open Sys2Proof

/-- R250: RTI raises IllegalOpcode(PC - 1, 0x8). -/
def execRti (s : State) : Result :=
  .next (s.raise (.illegalOpcode s.instrAddr 0x8#4))

/-- R251: RES raises IllegalOpcode(PC - 1, 0xD). -/
def execRes (s : State) : Result :=
  .next (s.raise (.illegalOpcode s.instrAddr 0xD#4))

end Sys2Proof.Machine
end

