-- ==== Sys2Proof/Machine/Stores.lean ====
section
/-! DEFINITION. The stores ST, STI and STR (43_store.md). The state a meaning takes is the one after the fetch
increment (R302). -/

namespace Sys2Proof.Machine

open Sys2Proof

/-- R190: ST. -/
def execSt (sr : Reg) (pcOffset9 : BitVec 9) (s : State) : Result :=
  .next (s.store (pcRelative pcOffset9 s) (s.reg sr))

/-- R191: STI, the pointer read and then the write. -/
def execSti (sr : Reg) (pcOffset9 : BitVec 9) (s : State) : Result :=
  .next (s.store (indirect pcOffset9 s) (s.reg sr))

/-- R192: STR. -/
def execStr (sr baseR : Reg) (offset6 : BitVec 6) (s : State) : Result :=
  .next (s.store (basePlusOffset baseR offset6 s) (s.reg sr))

end Sys2Proof.Machine
end

