-- ==== Sys2Proof/Machine/Trap.lean ====
section
/-! DEFINITION. TRAP and the six service routines (44_trap.md). A routine starts on the state after TRAP's link
write. One that cannot end yet leaves itself in `routine`, and the next steps resume it. -/

namespace Sys2Proof.Machine

open Sys2Proof

/-- R213, R218: x[0] from the host's answer: the byte zero-extended, 0x0000 at end of input. -/
def answerWord : Option Byte → Word
  | some b => zext16 b
  | none => 0x0000#16

/-- R213: GETC from its console read on. With no answer it waits (R212). -/
def State.serviceGetc (s : State) : State :=
  match s.consoleRead with
  | some (answer, t) => (t.writeRegFlags .r0 (answerWord answer)).setRoutine none
  | none => s.setRoutine (some .getc)

/-- R215: OUT writes the low byte of R0. -/
def State.serviceOut (s : State) : State := s.consoleWrite [lowByte (s.reg .r0)]

/-- R218, R219: IN from its console read on: store, echo the stored byte, update the flags. With no answer it
waits (R212). -/
def State.serviceInRead (s : State) : State :=
  match s.consoleRead with
  | some (answer, t) =>
    let u := t.writeReg .r0 (answerWord answer)
    ((u.consoleWrite [lowByte (u.reg .r0)]).updateFlags .r0).setRoutine none
  | none => s.setRoutine (some .inp)

/-- R218: IN writes its prompt and then reads. -/
def State.serviceIn (s : State) : State := (s.consoleWrite Config.inPrompt).serviceInRead

/-- R216, R220: the words of a string from `a` up to, and without, its zero word, in wrapping address order;
none if there is no zero word in the first `fuel` reads. -/
def Memory.stringAt (m : Memory) : Nat → Word → Option (List Word)
  | 0, _ => none
  | fuel + 1, a =>
    if m.read a = 0x0000#16 then some []
    else (Memory.stringAt m fuel (a + 1#16)).map (m.read a :: ·)

/-- R216: what PUTS writes for one word, its low byte. -/
def putsBytes (w : Word) : List Byte := [lowByte w]

/-- R220: what PUTSP writes for one word, its low byte and then its high byte if that is not zero. -/
def putspBytes (w : Word) : List Byte :=
  if highByte w = 0#8 then [lowByte w] else [lowByte w, highByte w]

/-- R216, R217: PUTS. A string that ends is written within the TRAP. One that does not end (no word of memory is
0x0000) is written word by word by the steps that follow, for ever. -/
def State.servicePuts (s : State) : State :=
  match s.mem.stringAt Config.memoryWords (s.reg .r0) with
  | some ws => (s.consoleWrite (ws.flatMap putsBytes)).consoleFlush
  | none => s.setRoutine (some (.puts (s.reg .r0)))

/-- R217, R220: PUTSP, as PUTS with two characters to the word. -/
def State.servicePutsp (s : State) : State :=
  match s.mem.stringAt Config.memoryWords (s.reg .r0) with
  | some ws => (s.consoleWrite (ws.flatMap putspBytes)).consoleFlush
  | none => s.setRoutine (some (.putsp (s.reg .r0)))

/-- R216: one turn of the loop of PUTS with a = `addr`. -/
def State.putsTurn (s : State) (addr : Word) : State :=
  if s.load addr = 0x0000#16 then s.consoleFlush.setRoutine none
  else (s.consoleWrite (putsBytes (s.load addr))).setRoutine (some (.puts (addr + 1#16)))

/-- R220: one turn of the loop of PUTSP with a = `addr`. -/
def State.putspTurn (s : State) (addr : Word) : State :=
  if s.load addr = 0x0000#16 then s.consoleFlush.setRoutine none
  else (s.consoleWrite (putspBytes (s.load addr))).setRoutine (some (.putsp (addr + 1#16)))

/-- R222: HALT writes its notice, flushes and ends the run. -/
def State.serviceHalt (s : State) : State := (s.consoleWrite Config.haltNotice).consoleFlush.halt

/-- R212, R217: goes on with a service routine that is in progress. -/
def State.resume (s : State) : Routine → State
  | .getc => s.serviceGetc
  | .inp => s.serviceInRead
  | .puts addr => s.putsTurn addr
  | .putsp addr => s.putspTurn addr

/-- R210: TRAP writes the link and then runs the routine its vector selects; R223: a vector that selects none
raises UnknownTrapVector, with R7 written. -/
def execTrap (trapvect8 : BitVec 8) (s : State) : Result :=
  match serviceOf trapvect8 with
  | some .getc => .next s.link.serviceGetc
  | some .out => .next s.link.serviceOut
  | some .puts => .next s.link.servicePuts
  | some .inp => .next s.link.serviceIn
  | some .putsp => .next s.link.servicePutsp
  | some .halt => .next s.link.serviceHalt
  | none => .next (s.link.raise (.unknownTrapVector s.instrAddr trapvect8))

end Sys2Proof.Machine
end

