-- ==== Sys2Proof/Machine/Step.lean ====
section
/-! DEFINITION. R301, R302: one step of the run loop, and the placing of one instruction where the next step
fetches. -/

namespace Sys2Proof.Machine

open Sys2Proof

/-- R302: fetch the word at PC, increment PC, decode, execute. While a service routine is in progress the step
goes on with it instead of fetching (R212, R217). In Halted and Faulted nothing is fetched and the state
changes no more (R44). -/
def step (s : State) : Host.Outcome State Fault Refusal :=
  match s.run with
  | .running =>
    match s.routine with
    | none => exec (decode s.fetchWord) s.advancePc
    | some r => .next (s.resume r)
  | .halted => .next s
  | .faulted _ => .next s

/-- The state with an instruction word stored at PC and the engine ready to fetch it: running, with no service
routine in progress (as it is at reset). It stands for the load port (R46, log entry 9). -/
def State.withFetchWord (s : State) (nbits w : Nat) : State :=
  ((s.store s.pc (BitVec.ofNat 16 (w % 2 ^ nbits))).setRun .running).setRoutine none

end Sys2Proof.Machine
end

