-- ==== Sys2Proof/Machine/Ports.lean ====
section
/-! DEFINITION. The load port and the outcome port (10_state.md R46, R48; 70_reset_and_hazards.md R300, R304). No step
uses them: they are the CORE's boundary before the first fetch and after the end of a run. -/

namespace Sys2Proof.Machine

open Sys2Proof

/-- R46: for every address a in the image, MEM[a] <- image(a). The image is a mapping, so an address should stand
once; where one stands twice the later word is the one kept (log entry 9). -/
def Memory.loadImage (m : Memory) (image : List (Word × Word)) : Memory :=
  image.foldl (fun acc cell => acc.write cell.1 cell.2) m

/-- R300: reset, then the loader's image, then PC <- ENTRY_PC; without an entry PC, PC stays 0x3000. ENTRY_PC and INPUT
are arguments, as R9 asks. -/
def State.launch (image : List (Word × Word)) (entryPc : Option Word) (input : ConsoleInput) : State :=
  { State.reset with
    mem := State.reset.mem.loadImage image
    pc := entryPc.getD Config.resetPc
    input := input }

/-- R304: a run has ended when it is Halted or Faulted. -/
def State.ended (s : State) : Bool := decide (s.run ≠ .running)

/-- R48: the exit code the host maps the outcome to; none while Running. -/
def State.exitCode (s : State) : Option Nat :=
  match s.run with
  | .running => none
  | .halted => some 0
  | .faulted _ => some Config.faultExitCode

/-- R48, R264: the diagnostic of a faulted run. -/
def State.diagnostic (s : State) : Option FaultRecord :=
  match s.run with
  | .faulted f => some f
  | _ => none

/-- R304: the observable result of an ended run. -/
structure RunResult where
  outcome : Run
  exitCode : Nat
  record : Option FaultRecord
  gpr : Gpr
  pc : Word
  cond : Word
  mem : Memory
  out : List Byte
deriving DecidableEq, Repr

/-- R304: the observable result of a run, none while it is Running. -/
def State.result (s : State) : Option RunResult :=
  s.exitCode.map fun code =>
    { outcome := s.run, exitCode := code, record := s.diagnostic, gpr := s.gpr, pc := s.pc, cond := s.cond
      mem := s.mem, out := s.out }

end Sys2Proof.Machine
end

