-- ==== Sys2Proof/Safety.lean ====
section
/-! DEFINITION. The terms the statements use: when the next step fetches, what an instruction leaves unchanged, what a
safe run is, and the invariant that every step keeps. -/

namespace Sys2Proof.Machine

open Sys2Proof

/-- The next step fetches an instruction: the run is Running (R301) and no service routine is in progress. -/
def State.ready (s : State) : Prop := s.run = .running ∧ s.routine = none

/-- A safe state: the run has not met a fatal error (R260). -/
def State.safe (s : State) : Prop := ∀ f, s.run ≠ .faulted f

/-- R36: COND holds exactly one of POS, ZRO and NEG. -/
def condLegal (v : Word) : Prop := v = condPos ∨ v = condZro ∨ v = condNeg

/-- R47: the host has an answer to the next console read, a byte or end of input. -/
def ConsoleInput.answers (c : ConsoleInput) : Prop := c.bytes ≠ [] ∨ c.tail ≠ .silent

/-- 92 D6: the next answer of `c` is the byte `b`, from its front or from an infinite INPUT, and `rest` is left. -/
def ConsoleInput.Gives (c : ConsoleInput) (b : Byte) (rest : ConsoleInput) : Prop :=
  c = ⟨b :: rest.bytes, rest.tail⟩ ∨
    ∃ id n, c = ⟨[], .stream id n⟩ ∧ b = Config.inputByte id n ∧ rest = ⟨[], .stream id (n + 1)⟩

/-! ### What is unchanged between two states -/

/-- Every general register is unchanged but those in `changed`. -/
def RegsSameBut (changed : List Reg) (s t : State) : Prop := ∀ q, q ∉ changed → t.reg q = s.reg q

/-- Every byte of memory is unchanged. -/
def MemorySame (s t : State) : Prop := ∀ k, t.mem.readByte k = s.mem.readByte k

/-- Every byte of memory is unchanged but the two bytes of the word at `ea`. -/
def MemorySameBut (ea : Word) (s t : State) : Prop :=
  ∀ k, k ≠ lowKey ea → k ≠ highKey ea → t.mem.readByte k = s.mem.readByte k

/-- The console's output, the host's answers and the routine in progress are unchanged. -/
def ConsoleSame (s t : State) : Prop := t.out = s.out ∧ t.input = s.input ∧ t.routine = s.routine

/-- The effect of a flag-setting instruction: `dr` takes `v`, COND is that of `v`, nothing else changes. -/
structure WritesRegAndFlags (s t : State) (dr : Reg) (v : Word) : Prop where
  dest : t.reg dr = v
  regs : RegsSameBut [dr] s t
  flags : t.cond = setcc v
  pc : t.pc = s.pc
  mem : MemorySame s t
  console : ConsoleSame s t
  run : t.run = s.run

/-- The effect of a control transfer: PC takes `target`, the registers in `linked` take the old PC, nothing else
changes. -/
structure TransfersControl (s t : State) (linked : List Reg) (target : Word) : Prop where
  target_pc : t.pc = target
  link : ∀ q ∈ linked, t.reg q = s.pc
  regs : RegsSameBut linked s t
  flags : t.cond = s.cond
  mem : MemorySame s t
  console : ConsoleSame s t
  run : t.run = s.run

/-- The effect of a store: the word at `ea` takes `v`, nothing else changes. -/
structure StoresWord (s t : State) (ea v : Word) : Prop where
  stored : t.load ea = v
  mem : MemorySameBut ea s t
  regs : RegsSameBut [] s t
  flags : t.cond = s.cond
  pc : t.pc = s.pc
  console : ConsoleSame s t
  run : t.run = s.run

/-- What every TRAP leaves but for R0, COND, the console and the run state: R7 takes the post-fetch PC; R1 to R6, PC
and memory are unchanged (R224). -/
structure TrapFrame (s t : State) : Prop where
  link : t.reg .r7 = s.pc
  regs : RegsSameBut [.r0, .r7] s t
  pc : t.pc = s.pc
  mem : MemorySame s t

/-! ### What an instruction may write -/

/-- R37, R138: the register whose value COND takes, for the flag-setting instructions; none for the others. -/
def flagRegister : Instr → Option Reg
  | .addReg dr _ _ | .addImm dr _ _ | .andReg dr _ _ | .andImm dr _ _ | .not dr _ => some dr
  | .ld dr _ | .ldi dr _ | .ldr dr _ _ | .lea dr _ => some dr
  | .trap v => if v = 0x20#8 ∨ v = 0x23#8 then some .r0 else none
  | .br _ _ | .jmp _ | .jsr _ | .jsrr _ | .st _ _ | .sti _ _ | .str _ _ _ | .rti | .res => none

/-- R34, R35: the instructions that may write PC after the fetch increment. -/
def writesPc : Instr → Bool
  | .br _ _ | .jmp _ | .jsr _ | .jsrr _ => true
  | .addReg _ _ _ | .addImm _ _ _ | .andReg _ _ _ | .andImm _ _ _ | .not _ _ => false
  | .ld _ _ | .ldi _ _ | .ldr _ _ _ | .lea _ _ | .st _ _ | .sti _ _ | .str _ _ _ => false
  | .trap _ | .rti | .res => false

/-- R87: the address an instruction writes, none for an instruction that writes no memory. -/
def storeAddress : Instr → State → Option Word
  | .st _ o, s => some (pcRelative o s)
  | .sti _ o, s => some (indirect o s)
  | .str _ b o, s => some (basePlusOffset b o s)
  | .br _ _, _ | .jmp _, _ | .jsr _, _ | .jsrr _, _ | .trap _, _ | .rti, _ | .res, _ => none
  | .addReg _ _ _, _ | .addImm _ _ _, _ | .andReg _ _ _, _ | .andImm _ _ _, _ | .not _ _, _ => none
  | .ld _ _, _ | .ldi _ _, _ | .ldr _ _ _, _ | .lea _ _, _ => none

/-- A BR, for the rule that only BR reads COND (R38). -/
def isBranch : Instr → Bool
  | .br _ _ => true
  | .jmp _ | .jsr _ | .jsrr _ | .trap _ | .rti | .res => false
  | .addReg _ _ _ | .addImm _ _ _ | .andReg _ _ _ | .andImm _ _ _ | .not _ _ => false
  | .ld _ _ | .ldi _ _ | .ldr _ _ _ | .lea _ _ | .st _ _ | .sti _ _ | .str _ _ _ => false

/-- The instructions of a list executed one after another, without their fetches. -/
def execSeq : List Instr → State → Result
  | [], s => .next s
  | i :: is, s =>
    match exec i s with
    | .next t => execSeq is t
    | .fault r => .fault r
    | .refused r => .refused r

/-! ### The invariant -/

/-- R210, R212: the service a routine in progress belongs to. -/
def Routine.service : Routine → Service
  | .getc => .getc
  | .inp => .inp
  | .puts _ => .puts
  | .putsp _ => .putsp

/-- The TRAP that selects the service stands at `addr`. -/
def TrapAt (s : State) (addr : Word) (v : Service) : Prop :=
  ∃ vector, decode (s.load addr) = .trap vector ∧ serviceOf vector = some v

/-- What every step keeps, and what reset establishes. -/
structure State.Inv (s : State) : Prop where
  /-- The memory is in canonical form. -/
  memory_canonical : s.mem.wf
  /-- R36. -/
  cond_one_flag : condLegal s.cond
  /-- R44: an ended run has no routine in progress. -/
  routine_running : ∀ r, s.routine = some r → s.run = .running
  /-- R210, R212: a routine in progress is that of the TRAP just before PC, whose link is in R7. -/
  routine_of_trap : ∀ r, s.routine = some r → s.reg .r7 = s.pc ∧ TrapAt s s.instrAddr r.service
  /-- R217: PUTS and PUTSP stay in progress only where memory has no zero word. -/
  string_endless : ∀ a, s.routine = some (.puts a) ∨ s.routine = some (.putsp a) → ∀ b, s.load b ≠ 0#16
  /-- R222: a halted run stands just after a TRAP HALT, whose link is in R7. -/
  halted_at_halt : s.run = .halted → s.reg .r7 = s.pc ∧ TrapAt s s.instrAddr .halt
  /-- R262, R264: an IllegalOpcode record names the instruction before PC and its opcode, 0x8 or 0xD. -/
  illegal_record : ∀ a op, s.run = .faulted (.illegalOpcode a op) →
    a = s.instrAddr ∧ op = (s.load a).extractLsb' 12 4 ∧ (op = 0x8#4 ∨ op = 0xD#4)
  /-- R263, R264: an UnknownTrapVector record names the TRAP before PC and its vector, and R7 holds the link. -/
  vector_record : ∀ a v, s.run = .faulted (.unknownTrapVector a v) →
    a = s.instrAddr ∧ decode (s.load a) = .trap v ∧ serviceOf v = none ∧ s.reg .r7 = s.pc

end Sys2Proof.Machine
end

