-- ==== Sys2Proof/Certificates/Slice0/Obligations.lean ====
section
/-! DEFINITION. The statements for the provers. `s` in a statement about `exec` is the state after the fetch
increment, so `s.pc` is the post-fetch PC (R33). -/

open Sys2Proof Sys2Proof.Machine

/-! ### Decoding and encoding (30_encoding.md) -/

/-- 30_encoding.md section 2: the word of an instruction decodes to that instruction, with every operand at every
value its field admits. -/
def Obligations.DecodeOfEncodeIsTheInstruction : Prop :=
  ∀ i : Instr, decode (encode i) = i

/-- R118: every word matches its own instruction's row of the opcode table and no other row, and the decoder looks
only at the bits the formats name. -/
def Obligations.EveryWordDecodesToOneRow : Prop :=
  ∀ w : Word,
    w &&& (decode w).rowMask = (decode w).rowMatch ∧
    (∀ i : Instr, w &&& i.rowMask = i.rowMatch → i.rowMatch = (decode w).rowMatch) ∧
    ∀ w' : Word, w' &&& (decode w).namedBits = w &&& (decode w).namedBits → decode w' = decode w

/-- 30_encoding.md section 2, R120: encoding what a word decodes to gives the word back, with the bits no handler
reads at 0 (that 0 is the encoder's choice, log entry 10). -/
def Obligations.EncodeOfDecodeKeepsNamedBits : Prop :=
  ∀ w : Word, encode (decode w) = w &&& (decode w).namedBits

/-- R120: changing bits[4:3] of a register-mode ADD or AND, bits[5:0] of NOT, bits[11:9] and [5:0] of JMP, bits[10:9]
and [5:0] of JSRR or bits[11:8] of TRAP gives the same instruction. -/
def Obligations.UnusedBitsAreIgnored : Prop :=
  ∀ w x : Word,
    (w &&& 0xF020#16 = 0x1000#16 → decode (w ^^^ (x &&& 0x0018#16)) = decode w) ∧
    (w &&& 0xF020#16 = 0x5000#16 → decode (w ^^^ (x &&& 0x0018#16)) = decode w) ∧
    (w &&& 0xF000#16 = 0x9000#16 → decode (w ^^^ (x &&& 0x003F#16)) = decode w) ∧
    (w &&& 0xF000#16 = 0xC000#16 → decode (w ^^^ (x &&& 0x0E3F#16)) = decode w) ∧
    (w &&& 0xF800#16 = 0x4000#16 → decode (w ^^^ (x &&& 0x063F#16)) = decode w) ∧
    (w &&& 0xF000#16 = 0xF000#16 → decode (w ^^^ (x &&& 0x0F00#16)) = decode w)

/-- R123: the words of the pseudo-instructions, NOP as BR with cond = 000 and any offset; and one word of each family,
from the spec's examples and 95_test_vectors.md, most of which the spec marks derived. That 0x90BF and 0xFF25 decode
with their unread bits set is the spec's decision D7 (log entry 13). -/
def Obligations.SpecWordsDecode : Prop :=
  decode 0xC1C0#16 = .jmp .r7 ∧ decode 0xF020#16 = .trap 0x20#8 ∧ decode 0xF021#16 = .trap 0x21#8 ∧
  decode 0xF022#16 = .trap 0x22#8 ∧ decode 0xF023#16 = .trap 0x23#8 ∧ decode 0xF024#16 = .trap 0x24#8 ∧
  decode 0xF025#16 = .trap 0x25#8 ∧ decode 0x0000#16 = .br 0#3 0#9 ∧
  (∀ offset : BitVec 9, decode (0#7 ++ offset) = .br 0#3 offset) ∧
  decode 0x1642#16 = .addReg .r3 .r1 .r2 ∧ decode 0x127F#16 = .addImm .r1 .r1 0x1F#5 ∧
  decode 0x54AF#16 = .andImm .r2 .r2 0x0F#5 ∧ decode 0x90BF#16 = .not .r0 .r2 ∧
  decode 0x0805#16 = .br 0b100#3 5#9 ∧ decode 0x480E#16 = .jsr 14#11 ∧ decode 0x4080#16 = .jsrr .r2 ∧
  decode 0xAA09#16 = .ldi .r5 9#9 ∧ decode 0x687F#16 = .ldr .r4 .r1 0x3F#6 ∧
  decode 0x3404#16 = .st .r2 4#9 ∧ decode 0x73BF#16 = .str .r1 .r6 0x3F#6 ∧
  decode 0xFF25#16 = .trap 0x25#8 ∧ decode 0x8FFF#16 = .rti ∧ decode 0xD123#16 = .res

/-! ### Reset, launch, the register file, memory -/

/-- R45: what reset leaves, and that launch replaces PC by the entry PC. -/
def Obligations.ResetLeavesTheStatedValues : Prop :=
  (∀ r, State.reset.reg r = 0x0000#16) ∧ State.reset.pc = 0x3000#16 ∧ State.reset.cond = 0x0002#16 ∧
  (∀ a, State.reset.load a = 0x0000#16) ∧ State.reset.run = .running ∧ State.reset.out = [] ∧
  ∀ image entry input, (State.launch image (some entry) input).pc = entry

/-- R46, R300: after launch each address of the image holds its word and every other address 0x0000, PC is the
entry PC, 0x3000 where none is given, and the rest is as after reset. INPUT is an argument of the run (R9).
That INPUT is a field of State and that no routine is in progress are the model's choices (log entries 2 and 3). -/
def Obligations.LaunchLoadsTheImage : Prop :=
  ∀ (image : List (Word × Word)) (entry : Option Word) (input : ConsoleInput), (image.map Prod.fst).Nodup →
    (∀ a v, (a, v) ∈ image → (State.launch image entry input).load a = v) ∧
    (∀ a, a ∉ image.map Prod.fst → (State.launch image entry input).load a = 0x0000#16) ∧
    (State.launch image entry input).pc = entry.getD 0x3000#16 ∧
    (∀ r, (State.launch image entry input).reg r = 0x0000#16) ∧
    (State.launch image entry input).cond = 0x0002#16 ∧ (State.launch image entry input).run = .running ∧
    (State.launch image entry input).out = [] ∧ (State.launch image entry input).routine = none ∧
    (State.launch image entry input).input = input

/-- R30: the numeric indices 0 to 9 of the register file are R0 to R7, PC and COND, and an index outside them fails
with InvalidRegister. -/
def Obligations.RegisterFileIndices : Prop :=
  ∀ s : State,
    (∀ r : Reg, s.readSlot r.toBits.toNat = .ok (s.reg r)) ∧
    s.readSlot 8 = .ok s.pc ∧ s.readSlot 9 = .ok s.cond ∧
    ∀ k, 9 < k → s.readSlot k = .error (.invalidRegister k)

/-- The canonical form (the model's own, log entry 1): two memories in it that hold the same words at all addresses
(R70) are the same data. -/
def Obligations.CanonicalMemoriesAreDeterminedByTheirWords : Prop :=
  ∀ m m' : Memory, m.wf → m'.wf → (∀ a, m.read a = m'.read a) → m = m'

/-- R85, R308: a store to the address of the next instruction is what the next step fetches and runs, for every
storing instruction. -/
def Obligations.StoreToTheNextAddressIsFetched : Prop :=
  ∀ (s t : State) (sr : Reg), s.mem.wf → s.ready → step s = .next t →
    ((∃ o, decode s.fetchWord = .st sr o) ∨ (∃ o, decode s.fetchWord = .sti sr o) ∨
      ∃ b o, decode s.fetchWord = .str sr b o) →
    storeAddress (decode s.fetchWord) s.advancePc = some (s.pc + 1#16) →
    t.fetchWord = s.reg sr ∧ step t = exec (decode (s.reg sr)) t.advancePc

/-- R87, the column of writes: an instruction leaves every byte of memory but those of the word at the address it
stores to, and an instruction that stores nothing leaves all of them. -/
def Obligations.OnlyStoresWriteMemory : Prop :=
  ∀ (i : Instr) (s t : State), exec i s = .next t →
    ∀ k, (∀ ea, storeAddress i s = some ea → k ≠ lowKey ea ∧ k ≠ highKey ea) →
      t.mem.readByte k = s.mem.readByte k

/-! ### Operands and flags -/

/-- R12: at the widths 5, 6, 9 and 11, sext_N follows the stated formula and keeps the two's-complement value, and
extending its low N bits again gives it back. -/
def Obligations.SignExtensionKeepsTheValue : Prop :=
  ∀ n ∈ [5, 6, 9, 11], ∀ v : BitVec n,
    sext v = (if v.getLsbD (n - 1) then (0xFFFF#16 <<< n) ||| v.setWidth 16 else v.setWidth 16) ∧
    (sext v).toInt = v.toInt ∧ sext ((sext v).setWidth n) = sext v

/-- R73, R114, R115: effective addresses are the post-fetch PC or the base register plus the offset's signed value,
unscaled and modulo 2^16. -/
def Obligations.EffectiveAddressesWrap : Prop :=
  ∀ s : State,
    (∀ o : BitVec 9, ((pcRelative o s).toNat : Int) = (s.pc.toNat + o.toInt) % 65536) ∧
    (∀ o : BitVec 11, ((pcRelative o s).toNat : Int) = (s.pc.toNat + o.toInt) % 65536) ∧
    ∀ (b : Reg) (o : BitVec 6), ((basePlusOffset b o s).toNat : Int) = ((s.reg b).toNat + o.toInt) % 65536

/-- R16: update_flags gives ZRO, NEG or POS from the value the register holds, and changes nothing else. -/
def Obligations.UpdateFlagsReadsTheRegister : Prop :=
  ∀ (s : State) (r : Reg),
    (s.reg r = 0#16 → (s.updateFlags r).cond = 0x0002#16) ∧
    (s.reg r ≠ 0#16 → (s.reg r).getLsbD 15 = true → (s.updateFlags r).cond = 0x0004#16) ∧
    (s.reg r ≠ 0#16 → (s.reg r).getLsbD 15 = false → (s.updateFlags r).cond = 0x0001#16) ∧
    (s.updateFlags r).setCond s.cond = s

/-- R37: COND takes the flags of the destination just written by ADD, AND, NOT, LD, LDI, LDR and LEA, and by GETC and IN
where the host answers; every other instruction leaves COND, the R7 link writes included. -/
def Obligations.FlagSettersFollowTheirDestination : Prop :=
  ∀ (i : Instr) (s : State), ∃ t, exec i s = .next t ∧
    (flagRegister i = none → t.cond = s.cond) ∧
    ∀ r, flagRegister i = some r → (∀ v, i ≠ .trap v) ∨ s.input.answers → t.cond = setcc (t.reg r)

/-- R37, R138: a step of a flag-setting instruction, or the end of a waiting GETC or IN, leaves COND as the flags of the
destination it wrote; every other step of a running machine leaves COND, a GETC or IN that begins to wait or goes on
waiting included (R212). That waits and endless strings take steps is the model's choice (log entries 3 and 4). -/
def Obligations.OnlyTheFlagSettersWriteCond : Prop :=
  ∀ s t : State, s.run = .running → step s = .next t →
    (s.routine = none → ∀ r, flagRegister (decode s.fetchWord) = some r →
      (t.routine = none → t.cond = setcc (t.reg r)) ∧ (t.routine ≠ none → t.cond = s.cond)) ∧
    (s.routine = none → flagRegister (decode s.fetchWord) = none → t.cond = s.cond) ∧
    (∀ q, s.routine = some q → q = .getc ∨ q = .inp →
      (t.routine = none → t.cond = setcc (t.reg .r0)) ∧ (t.routine ≠ none → t.cond = s.cond)) ∧
    (∀ a, s.routine = some (.puts a) ∨ s.routine = some (.putsp a) → t.cond = s.cond)

/-- R38: an instruction that is no BR does not read COND: with another COND it gives the same state, but for COND. -/
def Obligations.OnlyBranchesReadCond : Prop :=
  ∀ (i : Instr) (s t : State) (c : Word), isBranch i = false → exec i s = .next t →
    ∃ t', exec i (s.setCond c) = .next t' ∧ t'.setCond 0#16 = t.setCond 0#16

/-! ### Operate instructions (40_operate.md) -/

/-- R130: encoding, result, flags and frame of ADD in register mode. -/
def Obligations.AddRegisterWritesTheSum : Prop :=
  (∀ w : Word, w &&& 0xF020#16 = 0x1000#16 →
    decode w = .addReg (Reg.ofBits (w.extractLsb' 9 3)) (Reg.ofBits (w.extractLsb' 6 3))
      (Reg.ofBits (w.extractLsb' 0 3))) ∧
  ∀ (dr sr1 sr2 : Reg) (s : State), ∃ t, exec (.addReg dr sr1 sr2) s = .next t ∧
    WritesRegAndFlags s t dr (s.reg sr1 + s.reg sr2)

/-- R131: encoding, result, flags and frame of ADD in immediate mode. -/
def Obligations.AddImmediateWritesTheSum : Prop :=
  (∀ w : Word, w &&& 0xF020#16 = 0x1020#16 →
    decode w = .addImm (Reg.ofBits (w.extractLsb' 9 3)) (Reg.ofBits (w.extractLsb' 6 3))
      (w.extractLsb' 0 5)) ∧
  ∀ (dr sr1 : Reg) (imm5 : BitVec 5) (s : State), ∃ t, exec (.addImm dr sr1 imm5) s = .next t ∧
    WritesRegAndFlags s t dr (s.reg sr1 + sext imm5)

/-- R132: the sum of ADD is the unsigned and the two's-complement sum modulo 2^16, in both modes, and a positive
signed overflow reads as NEG, in both modes. -/
def Obligations.AddIsBothSumsModulo : Prop :=
  ∀ (dr sr1 sr2 : Reg) (imm5 : BitVec 5) (s t u : State),
    exec (.addReg dr sr1 sr2) s = .next t → exec (.addImm dr sr1 imm5) s = .next u →
    (t.reg dr).toNat = ((s.reg sr1).toNat + (s.reg sr2).toNat) % 65536 ∧
    (t.reg dr).toInt = ((s.reg sr1).toInt + (s.reg sr2).toInt).bmod 65536 ∧
    (32768 ≤ (s.reg sr1).toInt + (s.reg sr2).toInt → t.cond = 0x0004#16) ∧
    (u.reg dr).toNat = ((s.reg sr1).toNat + (sext imm5).toNat) % 65536 ∧
    (u.reg dr).toInt = ((s.reg sr1).toInt + imm5.toInt).bmod 65536 ∧
    (32768 ≤ (s.reg sr1).toInt + imm5.toInt → u.cond = 0x0004#16)

/-- R133: encoding, result, flags and frame of AND in register mode. -/
def Obligations.AndRegisterWritesTheConjunction : Prop :=
  (∀ w : Word, w &&& 0xF020#16 = 0x5000#16 →
    decode w = .andReg (Reg.ofBits (w.extractLsb' 9 3)) (Reg.ofBits (w.extractLsb' 6 3))
      (Reg.ofBits (w.extractLsb' 0 3))) ∧
  ∀ (dr sr1 sr2 : Reg) (s : State), ∃ t, exec (.andReg dr sr1 sr2) s = .next t ∧
    WritesRegAndFlags s t dr (s.reg sr1 &&& s.reg sr2)

/-- R134: encoding, result, flags and frame of AND in immediate mode. -/
def Obligations.AndImmediateWritesTheConjunction : Prop :=
  (∀ w : Word, w &&& 0xF020#16 = 0x5020#16 →
    decode w = .andImm (Reg.ofBits (w.extractLsb' 9 3)) (Reg.ofBits (w.extractLsb' 6 3))
      (w.extractLsb' 0 5)) ∧
  ∀ (dr sr1 : Reg) (imm5 : BitVec 5) (s : State), ∃ t, exec (.andImm dr sr1 imm5) s = .next t ∧
    WritesRegAndFlags s t dr (s.reg sr1 &&& sext imm5)

/-- R135: bit i of the result of AND is bit i of its first operand and bit i of its second, in both modes. -/
def Obligations.AndIsBitwise : Prop :=
  ∀ (dr sr1 sr2 : Reg) (imm5 : BitVec 5) (s t u : State),
    exec (.andReg dr sr1 sr2) s = .next t → exec (.andImm dr sr1 imm5) s = .next u →
    ∀ i, i < 16 →
      (t.reg dr).getLsbD i = ((s.reg sr1).getLsbD i && (s.reg sr2).getLsbD i) ∧
      (u.reg dr).getLsbD i = ((s.reg sr1).getLsbD i && (sext imm5).getLsbD i)

/-- R136: encoding, result, flags and frame of NOT. That a word with any bits[5:0] decodes to it is the spec's decision
D7 (log entry 13). -/
def Obligations.NotWritesTheComplement : Prop :=
  (∀ w : Word, w &&& 0xF000#16 = 0x9000#16 →
    decode w = .not (Reg.ofBits (w.extractLsb' 9 3)) (Reg.ofBits (w.extractLsb' 6 3))) ∧
  ∀ (dr sr1 : Reg) (s : State), ∃ t, exec (.not dr sr1) s = .next t ∧
    WritesRegAndFlags s t dr (~~~(s.reg sr1))

/-- R124: the idioms. For OR the scratch register must also differ from the destination, which the rule leaves
unsaid (log entry 15). -/
def Obligations.IdiomsComputeTheirResults : Prop :=
  ∀ s : State,
    (∀ d r, ∃ t, execSeq [.addImm d r 0#5] s = .next t ∧ t.reg d = s.reg r ∧ t.cond = setcc (s.reg r)) ∧
    (∀ d, ∃ t, execSeq [.andImm d d 0#5] s = .next t ∧ t.reg d = 0#16 ∧ t.cond = condZro) ∧
    (∀ d a b, d ≠ a → ∃ t, execSeq [.not d b, .addImm d d 1#5, .addReg d d a] s = .next t ∧
      t.reg d = s.reg a - s.reg b) ∧
    (∀ d a b r, r ≠ b → r ≠ d → ∃ t,
      execSeq [.not r a, .not d b, .andReg d r d, .not d d] s = .next t ∧ t.reg d = s.reg a ||| s.reg b) ∧
    (∀ d r, ∃ t, execSeq [.addReg d r r] s = .next t ∧ t.reg d = s.reg r <<< 1) ∧
    (∀ d r, ∃ t, execSeq [.not d r, .addImm d d 1#5] s = .next t ∧ t.reg d = -(s.reg r))

/-! ### Control transfer (41_control.md) -/

/-- R150: encoding, target and frame of BR. -/
def Obligations.BranchGoesToItsTarget : Prop :=
  (∀ w : Word, w &&& 0xF000#16 = 0x0000#16 → decode w = .br (w.extractLsb' 9 3) (w.extractLsb' 0 9)) ∧
  ∀ (cond : BitVec 3) (o : BitVec 9) (s : State), ∃ t, exec (.br cond o) s = .next t ∧
    TransfersControl s t []
      (if cond.setWidth 16 &&& s.cond ≠ 0#16 then s.pc + sext o else s.pc)

/-- R151: the decision table. For each of the three values of COND, BR is taken exactly when its n, z or p bit asks for
that value. -/
def Obligations.BranchDecisionTable : Prop :=
  ∀ (n z p : Bool) (o : BitVec 9) (s t : State), condLegal s.cond →
    exec (.br (BitVec.ofBool n ++ BitVec.ofBool z ++ BitVec.ofBool p) o) s = .next t →
    t.pc = if (n ∧ s.cond = condNeg) ∨ (z ∧ s.cond = condZro) ∨ (p ∧ s.cond = condPos)
      then s.pc + sext o else s.pc

/-- R152, R153: encoding, target and frame of JMP, of which RET is the case BaseR = R7. That a word with any bits[11:9]
and [5:0] decodes to it is the spec's decision D7 (log entry 13). -/
def Obligations.JumpGoesToTheBaseRegister : Prop :=
  (∀ w : Word, w &&& 0xF000#16 = 0xC000#16 → decode w = .jmp (Reg.ofBits (w.extractLsb' 6 3))) ∧
  decode 0xC1C0#16 = .jmp .r7 ∧
  ∀ (b : Reg) (s : State), ∃ t, exec (.jmp b) s = .next t ∧ TransfersControl s t [] (s.reg b)

/-- R154: encoding, link, target and frame of JSR. -/
def Obligations.JsrLinksAndGoesToItsTarget : Prop :=
  (∀ w : Word, w &&& 0xF800#16 = 0x4800#16 → decode w = .jsr (w.extractLsb' 0 11)) ∧
  ∀ (o : BitVec 11) (s : State), ∃ t, exec (.jsr o) s = .next t ∧
    TransfersControl s t [.r7] (s.pc + sext o)

/-- R155, R156: encoding, link, target and frame of JSRR. R7 is written before BaseR is read, so with BaseR = R7 it
falls through, the spec's decision D4. That a word with any bits[10:9] and [5:0] decodes to it is its decision D7
(log entry 13). -/
def Obligations.JsrrLinksAndGoesToTheBaseRegister : Prop :=
  (∀ w : Word, w &&& 0xF800#16 = 0x4000#16 → decode w = .jsrr (Reg.ofBits (w.extractLsb' 6 3))) ∧
  ∀ (b : Reg) (s : State), ∃ t, exec (.jsrr b) s = .next t ∧
    TransfersControl s t [.r7] (if b = .r7 then s.pc else s.reg b)

/-- R34: the fetch increments PC modulo 2^16, and only BR, JMP, JSR and JSRR write PC after it. -/
def Obligations.OtherInstructionsLeaveThePostFetchPc : Prop :=
  ∀ s t : State, s.ready → step s = .next t → writesPc (decode s.fetchWord) = false →
    t.pc.toNat = (s.pc.toNat + 1) % 65536

/-! ### Loads and LEA (42_load.md) -/

/-- R170: encoding, result, flags and frame of LD. -/
def Obligations.LdLoadsTheWord : Prop :=
  (∀ w : Word, w &&& 0xF000#16 = 0x2000#16 →
    decode w = .ld (Reg.ofBits (w.extractLsb' 9 3)) (w.extractLsb' 0 9)) ∧
  ∀ (dr : Reg) (o : BitVec 9) (s : State), ∃ t, exec (.ld dr o) s = .next t ∧
    WritesRegAndFlags s t dr (s.load (s.pc + sext o))

/-- R171: encoding, result, flags and frame of LDI. -/
def Obligations.LdiLoadsThroughThePointer : Prop :=
  (∀ w : Word, w &&& 0xF000#16 = 0xA000#16 →
    decode w = .ldi (Reg.ofBits (w.extractLsb' 9 3)) (w.extractLsb' 0 9)) ∧
  ∀ (dr : Reg) (o : BitVec 9) (s : State), ∃ t, exec (.ldi dr o) s = .next t ∧
    WritesRegAndFlags s t dr (s.load (s.load (s.pc + sext o)))

/-- R172: encoding, result, flags and frame of LDR. -/
def Obligations.LdrLoadsFromTheBase : Prop :=
  (∀ w : Word, w &&& 0xF000#16 = 0x6000#16 →
    decode w = .ldr (Reg.ofBits (w.extractLsb' 9 3)) (Reg.ofBits (w.extractLsb' 6 3))
      (w.extractLsb' 0 6)) ∧
  ∀ (dr b : Reg) (o : BitVec 6) (s : State), ∃ t, exec (.ldr dr b o) s = .next t ∧
    WritesRegAndFlags s t dr (s.load (s.reg b + sext o))

/-- R173: encoding, result, flags and frame of LEA; it sets the flags and reads no memory. -/
def Obligations.LeaWritesTheAddress : Prop :=
  (∀ w : Word, w &&& 0xF000#16 = 0xE000#16 →
    decode w = .lea (Reg.ofBits (w.extractLsb' 9 3)) (w.extractLsb' 0 9)) ∧
  ∀ (dr : Reg) (o : BitVec 9) (s : State), ∃ t, exec (.lea dr o) s = .next t ∧
    WritesRegAndFlags s t dr (s.pc + sext o)

/-! ### Stores (43_store.md) -/

/-- R190: encoding, stored word and frame of ST. -/
def Obligations.StStoresTheRegister : Prop :=
  (∀ w : Word, w &&& 0xF000#16 = 0x3000#16 →
    decode w = .st (Reg.ofBits (w.extractLsb' 9 3)) (w.extractLsb' 0 9)) ∧
  ∀ (sr : Reg) (o : BitVec 9) (s : State), s.mem.wf → ∃ t, exec (.st sr o) s = .next t ∧
    StoresWord s t (pcRelative o s) (s.reg sr)

/-- R191: encoding, stored word and frame of STI. -/
def Obligations.StiStoresThroughThePointer : Prop :=
  (∀ w : Word, w &&& 0xF000#16 = 0xB000#16 →
    decode w = .sti (Reg.ofBits (w.extractLsb' 9 3)) (w.extractLsb' 0 9)) ∧
  ∀ (sr : Reg) (o : BitVec 9) (s : State), s.mem.wf → ∃ t, exec (.sti sr o) s = .next t ∧
    StoresWord s t (indirect o s) (s.reg sr)

/-- R192: encoding, stored word and frame of STR. -/
def Obligations.StrStoresAtTheBase : Prop :=
  (∀ w : Word, w &&& 0xF000#16 = 0x7000#16 →
    decode w = .str (Reg.ofBits (w.extractLsb' 9 3)) (Reg.ofBits (w.extractLsb' 6 3))
      (w.extractLsb' 0 6)) ∧
  ∀ (sr b : Reg) (o : BitVec 6) (s : State), s.mem.wf → ∃ t, exec (.str sr b o) s = .next t ∧
    StoresWord s t (basePlusOffset b o s) (s.reg sr)

/-! ### TRAP and the service routines (44_trap.md) -/

/-- R224: what TRAP changes in total, for every vector: R7; R0 and COND for GETC and IN only; OUT for OUT, PUTS, IN,
PUTSP and HALT only; the run state for HALT and the vectors that are not defined only. That a word with any bits[11:8]
decodes to TRAP is the spec's decision D7 (log entry 13). -/
def Obligations.TrapChangesOnlyWhatItsRoutineMay : Prop :=
  (∀ w : Word, w &&& 0xF000#16 = 0xF000#16 → decode w = .trap (w.extractLsb' 0 8)) ∧
  ∀ (v : BitVec 8) (s : State), ∃ t, exec (.trap v) s = .next t ∧ TrapFrame s t ∧
    (v ≠ 0x20#8 → v ≠ 0x23#8 → t.reg .r0 = s.reg .r0 ∧ t.cond = s.cond ∧ t.input = s.input) ∧
    (v = 0x20#8 ∨ v.toNat < 0x20 ∨ 0x25 < v.toNat → t.out = s.out) ∧
    (0x20 ≤ v.toNat → v.toNat < 0x25 → t.run = s.run)

/-- R213, R214: GETC stores the next byte zero-extended, or 0 at end of input, sets the flags from it and does not
echo. After end of input the console stays at end of input (the spec's decision D6). INPUT may be finite or infinite
(D6): after each GETC the answers still to come are those before it without the first. The form of the input is the
model's (log entry 2). -/
def Obligations.GetcReadsOneByte : Prop :=
  ∀ s : State,
    (∀ b rest, s.input.Gives b rest → ∃ t, exec (.trap 0x20#8) s = .next t ∧ TrapFrame s t ∧
      t.reg .r0 = b.setWidth 16 ∧ t.cond = (if b = 0#8 then condZro else condPos) ∧
      t.out = s.out ∧ t.input = rest ∧ t.routine = none ∧ t.run = s.run) ∧
    (s.input = ⟨[], .ended⟩ → ∃ t, exec (.trap 0x20#8) s = .next t ∧ TrapFrame s t ∧
      t.reg .r0 = 0x0000#16 ∧ t.cond = condZro ∧
      t.out = s.out ∧ t.input = s.input ∧ t.routine = none ∧ t.run = s.run) ∧
    ∀ t, exec (.trap 0x20#8) s = .next t → ∀ k, t.input.answerAt k = s.input.answerAt (k + 1)

/-- R215: OUT writes the low byte of R0. -/
def Obligations.OutWritesTheLowByte : Prop :=
  ∀ s : State, ∃ t, exec (.trap 0x21#8) s = .next t ∧ TrapFrame s t ∧
    t.out = s.out ++ [(s.reg .r0).extractLsb' 0 8] ∧ t.reg .r0 = s.reg .r0 ∧ t.cond = s.cond ∧
    t.input = s.input ∧ t.routine = s.routine ∧ t.run = s.run

/-- R216: PUTS writes the low bytes of the words from MEM[x[0]] up to the first zero word, in wrapping address
order. -/
def Obligations.PutsWritesTheString : Prop :=
  ∀ (s : State) (n : Nat), (∀ j, j < n → s.load (s.reg .r0 + BitVec.ofNat 16 j) ≠ 0x0000#16) →
    s.load (s.reg .r0 + BitVec.ofNat 16 n) = 0x0000#16 →
    ∃ t, exec (.trap 0x22#8) s = .next t ∧ TrapFrame s t ∧
      t.out = s.out ++ (List.range n).map
        (fun j => (s.load (s.reg .r0 + BitVec.ofNat 16 j)).extractLsb' 0 8) ∧
      t.reg .r0 = s.reg .r0 ∧ t.cond = s.cond ∧ t.input = s.input ∧ t.routine = s.routine ∧ t.run = s.run

/-- R220: PUTSP writes of each such word the low byte and then, if it is not zero, the high byte. -/
def Obligations.PutspWritesThePackedString : Prop :=
  ∀ (s : State) (n : Nat), (∀ j, j < n → s.load (s.reg .r0 + BitVec.ofNat 16 j) ≠ 0x0000#16) →
    s.load (s.reg .r0 + BitVec.ofNat 16 n) = 0x0000#16 →
    ∃ t, exec (.trap 0x24#8) s = .next t ∧ TrapFrame s t ∧
      t.out = s.out ++ (List.range n).flatMap (fun j =>
        (s.load (s.reg .r0 + BitVec.ofNat 16 j)).extractLsb' 0 8 ::
          if (s.load (s.reg .r0 + BitVec.ofNat 16 j)).extractLsb' 8 8 = 0#8 then []
          else [(s.load (s.reg .r0 + BitVec.ofNat 16 j)).extractLsb' 8 8]) ∧
      t.reg .r0 = s.reg .r0 ∧ t.cond = s.cond ∧ t.input = s.input ∧ t.routine = s.routine ∧ t.run = s.run

/-- R217: PUTS and PUTSP end within their TRAP exactly if some word of memory is 0x0000. Otherwise they are in progress
for ever: after k more steps the run is Running and the first k words from x[0], in wrapping address order,
have been written. The step by which such a loop advances, one word, is the model's choice (log entry 4). -/
def Obligations.EndlessStringsAreWrittenForEver : Prop :=
  ∀ (s : State), s.ready →
    ((∃ t, exec (.trap 0x22#8) s = .next t ∧ t.routine = none) ↔ ∃ a, s.load a = 0x0000#16) ∧
    ((∃ t, exec (.trap 0x24#8) s = .next t ∧ t.routine = none) ↔ ∃ a, s.load a = 0x0000#16) ∧
    ((∀ a, s.load a ≠ 0x0000#16) → ∀ k, ∃ t u t' u',
      exec (.trap 0x22#8) s = .next t ∧ Sys2Proof.core.run k t = .next u ∧ u.run = .running ∧
      u.out = s.out ++ (List.range k).flatMap
        (fun j => putsBytes (s.load (s.reg .r0 + BitVec.ofNat 16 j))) ∧
      exec (.trap 0x24#8) s = .next t' ∧ Sys2Proof.core.run k t' = .next u' ∧ u'.run = .running ∧
      u'.out = s.out ++ (List.range k).flatMap
        (fun j => putspBytes (s.load (s.reg .r0 + BitVec.ofNat 16 j))))

/-- R216, R220: the one step in which PUTS or PUTSP writes a string that ends leaves the state that its loop reaches
turn by turn. -/
def Obligations.StringServicesAgreeWithTheirLoops : Prop :=
  ∀ s t : State, s.ready → t.routine = none →
    (exec (.trap 0x22#8) s = .next t →
      ∃ k, Sys2Proof.core.run k (s.link.setRoutine (some (.puts (s.reg .r0)))) = .next t) ∧
    (exec (.trap 0x24#8) s = .next t →
      ∃ k, Sys2Proof.core.run k (s.link.setRoutine (some (.putsp (s.reg .r0)))) = .next t)

/-- R218, R219: IN writes its prompt, stores the next byte zero-extended or 0 at end of input, echoes the stored byte
and sets the flags from it. INPUT may be finite or infinite (the spec's decision D6): after each IN the answers still
to come are those before it without the first. The form of the input is the model's (log entry 2). -/
def Obligations.InPromptsReadsAndEchoes : Prop :=
  ∀ s : State,
    (∀ b rest, s.input.Gives b rest → ∃ t, exec (.trap 0x23#8) s = .next t ∧ TrapFrame s t ∧
      t.reg .r0 = b.setWidth 16 ∧ t.cond = (if b = 0#8 then condZro else condPos) ∧
      t.out = s.out ++ Config.inPrompt ++ [b] ∧ t.input = rest ∧ t.routine = none ∧ t.run = s.run) ∧
    (s.input = ⟨[], .ended⟩ → ∃ t, exec (.trap 0x23#8) s = .next t ∧ TrapFrame s t ∧
      t.reg .r0 = 0x0000#16 ∧ t.cond = condZro ∧
      t.out = s.out ++ Config.inPrompt ++ [0x00#8] ∧ t.input = s.input ∧ t.routine = none ∧ t.run = s.run) ∧
    ∀ t, exec (.trap 0x23#8) s = .next t → ∀ k, t.input.answerAt k = s.input.answerAt (k + 1)

/-- R212: where the host has not answered, GETC and IN wait with only R7 written and, for IN, the prompt written; while
they wait nothing changes; and when the host answers the routine ends as if the answer had been there. -/
def Obligations.WaitingReadsEndAsIfAnsweredAtOnce : Prop :=
  ∀ (s : State) (v : BitVec 8) (c : ConsoleInput), s.ready → v = 0x20#8 ∨ v = 0x23#8 →
    s.input = ⟨[], .silent⟩ → c.answers →
    ∃ t u, exec (.trap v) s = .next t ∧ TrapFrame s t ∧ t.reg .r0 = s.reg .r0 ∧ t.cond = s.cond ∧
      t.out = (if v = 0x23#8 then s.out ++ Config.inPrompt else s.out) ∧ t.run = .running ∧
      step t = .next t ∧ step (t.setInput c) = .next u ∧ exec (.trap v) (s.setInput c) = .next u ∧
      u.routine = none

/-- R212, R276: a console read the host never answers keeps the run Running for ever, with nothing changed. -/
def Obligations.UnansweredReadsWaitForEver : Prop :=
  ∀ s : State, s.run = .running → s.routine = some .getc ∨ s.routine = some .inp →
    ¬ s.input.answers → ∀ k, Sys2Proof.core.run k s = .next s

/-- R222: HALT writes its notice and ends the run Halted, with exit code 0; R7 and PC hold the post-fetch PC. -/
def Obligations.HaltEndsTheRun : Prop :=
  ∀ s : State, ∃ t, exec (.trap 0x25#8) s = .next t ∧ TrapFrame s t ∧ t.run = .halted ∧
    t.exitCode = some 0 ∧ t.out = s.out ++ Config.haltNotice ∧ t.reg .r0 = s.reg .r0 ∧ t.cond = s.cond ∧
    t.input = s.input ∧ t.routine = s.routine

/-- R223, R263: a vector outside 0x20 to 0x25 ends the run Faulted with UnknownTrapVector, the address of the TRAP
and the vector, after R7 is written and with nothing else changed. -/
def Obligations.UnknownVectorsFault : Prop :=
  ∀ (v : BitVec 8) (s : State), v.toNat < 0x20 ∨ 0x25 < v.toNat → ∃ t, exec (.trap v) s = .next t ∧
    t.run = .faulted (.unknownTrapVector (s.pc - 1#16) v) ∧ TrapFrame s t ∧ t.reg .r0 = s.reg .r0 ∧
    t.cond = s.cond ∧ ConsoleSame s t

/-! ### Reserved opcodes and faults (45_reserved.md, 60_exceptions.md) -/

/-- R112, R250, R251, R262: RTI and RES, with any bits[11:0], end the run Faulted with IllegalOpcode, the
instruction's address and its opcode, and with nothing else changed. -/
def Obligations.ReservedOpcodesFault : Prop :=
  (∀ w : Word, w &&& 0xF000#16 = 0x8000#16 → decode w = .rti) ∧
  (∀ w : Word, w &&& 0xF000#16 = 0xD000#16 → decode w = .res) ∧
  ∀ s : State,
    (∃ t, exec .rti s = .next t ∧ t.run = .faulted (.illegalOpcode (s.pc - 1#16) 0x8#4) ∧ t.pc = s.pc ∧
      RegsSameBut [] s t ∧ t.cond = s.cond ∧ MemorySame s t ∧ ConsoleSame s t) ∧
    ∃ t, exec .res s = .next t ∧ t.run = .faulted (.illegalOpcode (s.pc - 1#16) 0xD#4) ∧ t.pc = s.pc ∧
      RegsSameBut [] s t ∧ t.cond = s.cond ∧ MemorySame s t ∧ ConsoleSame s t

/-- R261: a step of a running machine enters Faulted exactly if it fetches an illegal opcode or a TRAP whose vector is
not defined. -/
def Obligations.FaultsComeOnlyFromIllFormedInstructions : Prop :=
  ∀ s t : State, s.run = .running → step s = .next t →
    ((∃ f, t.run = .faulted f) ↔ s.routine = none ∧ (decode s.fetchWord).wellFormed = false)

/-- R264: what entering Faulted leaves. PC is the instruction's address plus 1, the record names that address and the
opcode or vector, R7 is written by an UnknownTrapVector only, and nothing else has changed. -/
def Obligations.FaultEntryIsPrecise : Prop :=
  ∀ s t : State, s.ready → step s = .next t → ∀ f, t.run = .faulted f →
    t.pc = s.pc + 1#16 ∧ t.cond = s.cond ∧ MemorySame s t ∧ ConsoleSame s t ∧ t.diagnostic = some f ∧
    t.exitCode = some Config.faultExitCode ∧
    ((f = .illegalOpcode s.pc (s.fetchWord.extractLsb' 12 4) ∧ RegsSameBut [] s t) ∨
      (f = .unknownTrapVector s.pc (s.fetchWord.extractLsb' 0 8) ∧ RegsSameBut [.r7] s t ∧
        t.reg .r7 = s.pc + 1#16))

/-- R44, R265: Halted and Faulted are final. However many steps follow, nothing is fetched and nothing changes. -/
def Obligations.EndedRunsAreFinal : Prop :=
  ∀ (s : State) (k : Nat), s.run ≠ .running → Sys2Proof.core.run k s = .next s

/-- R44: Halted is entered only by TRAP HALT, and by every TRAP HALT. -/
def Obligations.OnlyTrapHaltHalts : Prop :=
  ∀ s t : State, s.run = .running → step s = .next t →
    (t.run = .halted ↔ s.routine = none ∧ decode s.fetchWord = .trap 0x25#8)

/-- R48: Halted gives exit code 0, Faulted FAULT_EXIT_CODE, which is not 0, with the diagnostic, Running none. R304 (the
spec's decision D24): only an ended run has a result, which is its outcome, exit code, fault record if any, R0 to R7,
PC, COND, memory and output. -/
def Obligations.OutcomesMapToExitCodes : Prop :=
  Config.faultExitCode ≠ 0 ∧
  ∀ s : State,
    (s.run = .running → s.exitCode = none ∧ s.diagnostic = none ∧ s.result = none) ∧
    (s.run = .halted → s.exitCode = some 0 ∧ s.diagnostic = none ∧
      s.result = some
        { outcome := .halted, exitCode := 0, record := none, gpr := s.gpr, pc := s.pc, cond := s.cond
          mem := s.mem, out := s.out }) ∧
    ∀ f, s.run = .faulted f → s.exitCode = some Config.faultExitCode ∧ s.diagnostic = some f ∧
      s.result = some
        { outcome := .faulted f, exitCode := Config.faultExitCode, record := some f, gpr := s.gpr, pc := s.pc
          cond := s.cond, mem := s.mem, out := s.out }

/-! ### The step (70_reset_and_hazards.md) -/

/-- R302: a step fetches the word at PC, increments PC and executes the instruction the word decodes to. -/
def Obligations.StepRunsTheDecodedInstruction : Prop :=
  ∀ (s : State) (i : Instr), s.ready → decode (s.load s.pc) = i → step s = exec i (s.setPc (s.pc + 1#16))

/-- R260, R301: from every state a step answers a next state. The machine never stops outside the run states Halted
and Faulted (log entries 5 and 6). -/
def Obligations.EveryStepAnswersANextState : Prop :=
  ∀ s : State, ∃ t, step s = .next t

/-- The invariant holds after reset. R36 and R45 give COND one flag and the run Running; that memory is in the model's
canonical form is the model's choice (log entry 1), and so is that no routine is in progress (log entry 3). -/
def Obligations.ResetHasTheInvariant : Prop := State.reset.Inv

/-- Every step keeps the invariant: the memory stays canonical, COND holds exactly one flag (R36), a routine in
progress belongs to the TRAP before PC, PUTS and PUTSP stay in progress only without a zero word (R217), and the
records of ended runs are true (R222, R264). The canonical form (log entry 1) and a routine in progress as a state
(log entries 3 and 4) are the model's choices. -/
def Obligations.EveryStepKeepsTheInvariant : Prop :=
  ∀ s t : State, s.Inv → step s = .next t → t.Inv
end

