-- ==== Sys2Proof/Laws/Decode.lean ====
section
/-! SUPPORT. Register fields, and what a match under a mask says of a word's bits. -/

namespace Sys2Proof

/-- R117: a register's field value selects the register. -/
@[simp] theorem Reg.ofBits_toBits (r : Reg) : Reg.ofBits r.toBits = r := by
  cases r <;> rfl

/-- R117: the register a field value selects has that field value. -/
@[simp] theorem Reg.toBits_ofBits : ∀ b : BitVec 3, (Reg.ofBits b).toBits = b := by
  decide

/-- A bit inside the mask of a row has the row's value. -/
theorem getLsbD_of_mask {w mask value : Word} (h : w &&& mask = value) {i : Nat} (hi : mask.getLsbD i = true) :
    w.getLsbD i = value.getLsbD i := by
  rw [← h]
  simp [hi]

end Sys2Proof
end

