-- ==== Sys2Proof/Laws/State.lean ====
section
/-! SUPPORT. One lemma for each field under each update of the state, so that no proof unfolds a record update. -/

namespace Sys2Proof.Machine

open Sys2Proof

/-! ### writeReg -/

@[simp] theorem State.writeReg_gpr (s : State) (r : Reg) (v : Word) :
    (s.writeReg r v).gpr = s.gpr.write r v := rfl

@[simp] theorem State.writeReg_pc (s : State) (r : Reg) (v : Word) :
    (s.writeReg r v).pc = s.pc := rfl

@[simp] theorem State.writeReg_cond (s : State) (r : Reg) (v : Word) :
    (s.writeReg r v).cond = s.cond := rfl

@[simp] theorem State.writeReg_mem (s : State) (r : Reg) (v : Word) :
    (s.writeReg r v).mem = s.mem := rfl

@[simp] theorem State.writeReg_run (s : State) (r : Reg) (v : Word) :
    (s.writeReg r v).run = s.run := rfl

@[simp] theorem State.writeReg_out (s : State) (r : Reg) (v : Word) :
    (s.writeReg r v).out = s.out := rfl

@[simp] theorem State.writeReg_routine (s : State) (r : Reg) (v : Word) :
    (s.writeReg r v).routine = s.routine := rfl

@[simp] theorem State.writeReg_input (s : State) (r : Reg) (v : Word) :
    (s.writeReg r v).input = s.input := rfl

@[simp] theorem State.writeReg_load (s : State) (r : Reg) (v : Word) (a : Word) :
    (s.writeReg r v).load a = s.load a := rfl

/-! ### setPc -/

@[simp] theorem State.setPc_gpr (s : State) (v : Word) :
    (s.setPc v).gpr = s.gpr := rfl

@[simp] theorem State.setPc_pc (s : State) (v : Word) :
    (s.setPc v).pc = v := rfl

@[simp] theorem State.setPc_cond (s : State) (v : Word) :
    (s.setPc v).cond = s.cond := rfl

@[simp] theorem State.setPc_mem (s : State) (v : Word) :
    (s.setPc v).mem = s.mem := rfl

@[simp] theorem State.setPc_run (s : State) (v : Word) :
    (s.setPc v).run = s.run := rfl

@[simp] theorem State.setPc_out (s : State) (v : Word) :
    (s.setPc v).out = s.out := rfl

@[simp] theorem State.setPc_routine (s : State) (v : Word) :
    (s.setPc v).routine = s.routine := rfl

@[simp] theorem State.setPc_input (s : State) (v : Word) :
    (s.setPc v).input = s.input := rfl

@[simp] theorem State.setPc_reg (s : State) (v : Word) (q : Reg) :
    (s.setPc v).reg q = s.reg q := rfl

@[simp] theorem State.setPc_load (s : State) (v : Word) (a : Word) :
    (s.setPc v).load a = s.load a := rfl

/-! ### setCond -/

@[simp] theorem State.setCond_gpr (s : State) (v : Word) :
    (s.setCond v).gpr = s.gpr := rfl

@[simp] theorem State.setCond_pc (s : State) (v : Word) :
    (s.setCond v).pc = s.pc := rfl

@[simp] theorem State.setCond_cond (s : State) (v : Word) :
    (s.setCond v).cond = v := rfl

@[simp] theorem State.setCond_mem (s : State) (v : Word) :
    (s.setCond v).mem = s.mem := rfl

@[simp] theorem State.setCond_run (s : State) (v : Word) :
    (s.setCond v).run = s.run := rfl

@[simp] theorem State.setCond_out (s : State) (v : Word) :
    (s.setCond v).out = s.out := rfl

@[simp] theorem State.setCond_routine (s : State) (v : Word) :
    (s.setCond v).routine = s.routine := rfl

@[simp] theorem State.setCond_input (s : State) (v : Word) :
    (s.setCond v).input = s.input := rfl

@[simp] theorem State.setCond_reg (s : State) (v : Word) (q : Reg) :
    (s.setCond v).reg q = s.reg q := rfl

@[simp] theorem State.setCond_load (s : State) (v : Word) (a : Word) :
    (s.setCond v).load a = s.load a := rfl

/-! ### store -/

@[simp] theorem State.store_gpr (s : State) (a v : Word) :
    (s.store a v).gpr = s.gpr := rfl

@[simp] theorem State.store_pc (s : State) (a v : Word) :
    (s.store a v).pc = s.pc := rfl

@[simp] theorem State.store_cond (s : State) (a v : Word) :
    (s.store a v).cond = s.cond := rfl

@[simp] theorem State.store_mem (s : State) (a v : Word) :
    (s.store a v).mem = s.mem.write a v := rfl

@[simp] theorem State.store_run (s : State) (a v : Word) :
    (s.store a v).run = s.run := rfl

@[simp] theorem State.store_out (s : State) (a v : Word) :
    (s.store a v).out = s.out := rfl

@[simp] theorem State.store_routine (s : State) (a v : Word) :
    (s.store a v).routine = s.routine := rfl

@[simp] theorem State.store_input (s : State) (a v : Word) :
    (s.store a v).input = s.input := rfl

@[simp] theorem State.store_reg (s : State) (a v : Word) (q : Reg) :
    (s.store a v).reg q = s.reg q := rfl

/-! ### setRun -/

@[simp] theorem State.setRun_gpr (s : State) (r : Run) :
    (s.setRun r).gpr = s.gpr := rfl

@[simp] theorem State.setRun_pc (s : State) (r : Run) :
    (s.setRun r).pc = s.pc := rfl

@[simp] theorem State.setRun_cond (s : State) (r : Run) :
    (s.setRun r).cond = s.cond := rfl

@[simp] theorem State.setRun_mem (s : State) (r : Run) :
    (s.setRun r).mem = s.mem := rfl

@[simp] theorem State.setRun_run (s : State) (r : Run) :
    (s.setRun r).run = r := rfl

@[simp] theorem State.setRun_out (s : State) (r : Run) :
    (s.setRun r).out = s.out := rfl

@[simp] theorem State.setRun_routine (s : State) (r : Run) :
    (s.setRun r).routine = s.routine := rfl

@[simp] theorem State.setRun_input (s : State) (r : Run) :
    (s.setRun r).input = s.input := rfl

@[simp] theorem State.setRun_reg (s : State) (r : Run) (q : Reg) :
    (s.setRun r).reg q = s.reg q := rfl

@[simp] theorem State.setRun_load (s : State) (r : Run) (a : Word) :
    (s.setRun r).load a = s.load a := rfl

/-! ### consoleWrite -/

@[simp] theorem State.consoleWrite_gpr (s : State) (bs : List Byte) :
    (s.consoleWrite bs).gpr = s.gpr := rfl

@[simp] theorem State.consoleWrite_pc (s : State) (bs : List Byte) :
    (s.consoleWrite bs).pc = s.pc := rfl

@[simp] theorem State.consoleWrite_cond (s : State) (bs : List Byte) :
    (s.consoleWrite bs).cond = s.cond := rfl

@[simp] theorem State.consoleWrite_mem (s : State) (bs : List Byte) :
    (s.consoleWrite bs).mem = s.mem := rfl

@[simp] theorem State.consoleWrite_run (s : State) (bs : List Byte) :
    (s.consoleWrite bs).run = s.run := rfl

@[simp] theorem State.consoleWrite_out (s : State) (bs : List Byte) :
    (s.consoleWrite bs).out = s.out ++ bs := rfl

@[simp] theorem State.consoleWrite_routine (s : State) (bs : List Byte) :
    (s.consoleWrite bs).routine = s.routine := rfl

@[simp] theorem State.consoleWrite_input (s : State) (bs : List Byte) :
    (s.consoleWrite bs).input = s.input := rfl

@[simp] theorem State.consoleWrite_reg (s : State) (bs : List Byte) (q : Reg) :
    (s.consoleWrite bs).reg q = s.reg q := rfl

@[simp] theorem State.consoleWrite_load (s : State) (bs : List Byte) (a : Word) :
    (s.consoleWrite bs).load a = s.load a := rfl

/-! ### setRoutine -/

@[simp] theorem State.setRoutine_gpr (s : State) (r : Option Routine) :
    (s.setRoutine r).gpr = s.gpr := rfl

@[simp] theorem State.setRoutine_pc (s : State) (r : Option Routine) :
    (s.setRoutine r).pc = s.pc := rfl

@[simp] theorem State.setRoutine_cond (s : State) (r : Option Routine) :
    (s.setRoutine r).cond = s.cond := rfl

@[simp] theorem State.setRoutine_mem (s : State) (r : Option Routine) :
    (s.setRoutine r).mem = s.mem := rfl

@[simp] theorem State.setRoutine_run (s : State) (r : Option Routine) :
    (s.setRoutine r).run = s.run := rfl

@[simp] theorem State.setRoutine_out (s : State) (r : Option Routine) :
    (s.setRoutine r).out = s.out := rfl

@[simp] theorem State.setRoutine_routine (s : State) (r : Option Routine) :
    (s.setRoutine r).routine = r := rfl

@[simp] theorem State.setRoutine_input (s : State) (r : Option Routine) :
    (s.setRoutine r).input = s.input := rfl

@[simp] theorem State.setRoutine_reg (s : State) (r : Option Routine) (q : Reg) :
    (s.setRoutine r).reg q = s.reg q := rfl

@[simp] theorem State.setRoutine_load (s : State) (r : Option Routine) (a : Word) :
    (s.setRoutine r).load a = s.load a := rfl

/-! ### setInput -/

@[simp] theorem State.setInput_gpr (s : State) (c : ConsoleInput) :
    (s.setInput c).gpr = s.gpr := rfl

@[simp] theorem State.setInput_pc (s : State) (c : ConsoleInput) :
    (s.setInput c).pc = s.pc := rfl

@[simp] theorem State.setInput_cond (s : State) (c : ConsoleInput) :
    (s.setInput c).cond = s.cond := rfl

@[simp] theorem State.setInput_mem (s : State) (c : ConsoleInput) :
    (s.setInput c).mem = s.mem := rfl

@[simp] theorem State.setInput_run (s : State) (c : ConsoleInput) :
    (s.setInput c).run = s.run := rfl

@[simp] theorem State.setInput_out (s : State) (c : ConsoleInput) :
    (s.setInput c).out = s.out := rfl

@[simp] theorem State.setInput_routine (s : State) (c : ConsoleInput) :
    (s.setInput c).routine = s.routine := rfl

@[simp] theorem State.setInput_input (s : State) (c : ConsoleInput) :
    (s.setInput c).input = c := rfl

@[simp] theorem State.setInput_reg (s : State) (c : ConsoleInput) (q : Reg) :
    (s.setInput c).reg q = s.reg q := rfl

@[simp] theorem State.setInput_load (s : State) (c : ConsoleInput) (a : Word) :
    (s.setInput c).load a = s.load a := rfl

/-! ### The same update twice -/

@[simp] theorem State.setPc_setPc (s : State) (v w : Word) : (s.setPc v).setPc w = s.setPc w := rfl

@[simp] theorem State.setCond_setCond (s : State) (v w : Word) : (s.setCond v).setCond w = s.setCond w := rfl

@[simp] theorem State.setInput_setInput (s : State) (c d : ConsoleInput) :
    (s.setInput c).setInput d = s.setInput d := rfl

@[simp] theorem State.setRoutine_setRoutine (s : State) (q r : Option Routine) :
    (s.setRoutine q).setRoutine r = s.setRoutine r := rfl

theorem State.consoleWrite_consoleWrite (s : State) (bs cs : List Byte) :
    (s.consoleWrite bs).consoleWrite cs = s.consoleWrite (bs ++ cs) := by
  simp [State.consoleWrite, List.append_assoc]

/-! ### Operations that are one of these updates -/

/-- R32: the link write is a write of R7. -/
@[simp] theorem State.link_eq (s : State) : s.link = s.writeReg .r7 s.pc := rfl

/-- R302: the fetch increment is a write of PC. -/
@[simp] theorem State.advancePc_eq (s : State) : s.advancePc = s.setPc (s.pc + 1#16) := rfl

/-- R264: fault entry is a write of the run state. -/
@[simp] theorem State.raise_eq (s : State) (f : FaultRecord) : s.raise f = s.setRun (.faulted f) := rfl

/-- R222: halt() is a write of the run state. -/
@[simp] theorem State.halt_eq (s : State) : s.halt = s.setRun .halted := rfl

/-- R221: a flush changes nothing. -/
@[simp] theorem State.consoleFlush_eq (s : State) : s.consoleFlush = s := rfl

/-- R137: a flag update is a write of COND. -/
@[simp] theorem State.updateFlags_eq (s : State) (r : Reg) : s.updateFlags r = s.setCond (setcc (s.reg r)) := rfl

@[simp] theorem State.instrAddr_eq (s : State) : s.instrAddr = s.pc - 1#16 := rfl

@[simp] theorem State.fetchWord_eq (s : State) : s.fetchWord = s.load s.pc := rfl

/-! ### Registers -/

/-- R14, R31: what a register reads after a write. -/
theorem Gpr.read_write (g : Gpr) (r q : Reg) (v : Word) :
    (g.write r v).read q = if q = r then v else g.read q := by
  cases r <;> cases q <;> rfl

@[simp] theorem State.reg_writeReg (s : State) (r q : Reg) (v : Word) :
    (s.writeReg r v).reg q = if q = r then v else s.reg q := Gpr.read_write s.gpr r q v

/-- Two register files that read the same everywhere are the same. -/
theorem Gpr.ext_read (g h : Gpr) (same : ∀ q, g.read q = h.read q) : g = h := by
  cases g; cases h
  simp only [Gpr.mk.injEq]
  exact ⟨same .r0, same .r1, same .r2, same .r3, same .r4, same .r5, same .r6, same .r7⟩

/-- R137, R138: everything a flag-setting destination write does. -/
theorem State.writeRegFlags_eq (s : State) (r : Reg) (v : Word) :
    s.writeRegFlags r v = (s.writeReg r v).setCond (setcc v) := by
  simp [State.writeRegFlags]

end Sys2Proof.Machine
end

