-- ==== Sys2Proof/Laws/Memory.lean ====
section
/-! SUPPORT. What the memory operations can do: a word reads as it was last written (R71, R72), a write leaves every
other byte alone, and every write keeps the canonical form. -/

namespace Sys2Proof.Machine

open Sys2Proof

/-- What the canonical form says. -/
theorem Memory.wf_iff {m : Memory} : m.wf = true ↔
    m.Pairwise (fun c d => c.1 < d.1) ∧ ∀ c ∈ m, c.2 ≠ Memory.unlisted ∧ c.1 < 2 * Config.memoryWords :=
  decide_eq_true_iff

/-- In canonical form the head's address is below every other. -/
theorem Memory.wf_head {c : Host.Cell} {m : Memory} (h : Memory.wf (c :: m) = true) : ∀ d ∈ m, c.1 < d.1 :=
  (List.pairwise_cons.mp (Memory.wf_iff.mp h).1).1

/-- The tail of a memory in canonical form is in canonical form. -/
theorem Memory.wf_tail {c : Host.Cell} {m : Memory} (h : Memory.wf (c :: m) = true) : m.wf = true :=
  Memory.wf_iff.mpr ⟨(Memory.wf_iff.mp h).1.of_cons,
    fun d hd => (Memory.wf_iff.mp h).2 d (List.mem_cons_of_mem c hd)⟩

/-- A byte below every listed address reads as unlisted. -/
theorem Memory.readByte_of_lt {m : Memory} {a : Nat} (h : ∀ c ∈ m, a < c.1) :
    m.readByte a = Memory.unlisted := by
  induction m with
  | nil => rfl
  | cons c rest ih =>
    have hc : c.1 ≠ a := Nat.ne_of_gt (h c List.mem_cons_self)
    simp only [Memory.readByte, if_neg hc]
    exact ih fun d hd => h d (List.mem_cons_of_mem c hd)

/-- Writing one byte leaves every other byte. No premise on the memory's form. -/
theorem Memory.readByte_writeByte_other (m : Memory) {a b : Nat} (v : Byte) (h : b ≠ a) :
    (m.writeByte a v).readByte b = m.readByte b := by
  induction m with
  | nil =>
    simp only [Memory.writeByte]
    split
    · rfl
    · simp [Memory.readByte, h.symm]
  | cons c rest ih =>
    obtain ⟨k, x⟩ := c
    simp only [Memory.writeByte]
    split
    · split
      · rfl
      · simp [Memory.readByte, h.symm]
    · split
      · next hk =>
        subst hk
        split <;> simp [Memory.readByte, h.symm]
      · simp only [Memory.readByte, ih]

/-- In canonical form the byte written is the byte read. -/
theorem Memory.readByte_writeByte_same {m : Memory} (hm : m.wf = true) (a : Nat) (v : Byte) :
    (m.writeByte a v).readByte a = v := by
  induction m with
  | nil =>
    simp only [Memory.writeByte]
    split
    · next hv => exact hv.symm
    · simp [Memory.readByte]
  | cons c rest ih =>
    obtain ⟨k, x⟩ := c
    have above : ∀ d ∈ rest, k < d.1 := Memory.wf_head hm
    simp only [Memory.writeByte]
    split
    · next hlt =>
      split
      · next hv =>
        rw [hv]
        refine Memory.readByte_of_lt fun d hd => ?_
        rcases List.mem_cons.mp hd with rfl | hd
        · exact hlt
        · exact Nat.lt_trans hlt (above d hd)
      · simp [Memory.readByte]
    · split
      · next hk =>
        subst hk
        split
        · next hv => rw [hv]; exact Memory.readByte_of_lt above
        · simp [Memory.readByte]
      · next hk =>
        simp only [Memory.readByte, if_neg (Ne.symm hk)]
        exact ih (Memory.wf_tail hm)

/-- Which entries a byte write can leave. -/
theorem Memory.mem_writeByte {m : Memory} {a : Nat} {v : Byte} {d : Host.Cell}
    (h : d ∈ m.writeByte a v) : (d = (a, v) ∧ v ≠ Memory.unlisted) ∨ d ∈ m := by
  induction m with
  | nil =>
    simp only [Memory.writeByte] at h
    split at h
    · cases h
    · next hv => exact .inl ⟨List.mem_singleton.mp h, hv⟩
  | cons c rest ih =>
    obtain ⟨k, x⟩ := c
    simp only [Memory.writeByte] at h
    split at h
    · split at h
      · exact .inr h
      · next hv => exact (List.mem_cons.mp h).imp (fun e => ⟨e, hv⟩) id
    · split at h
      · split at h
        · exact .inr (List.mem_cons_of_mem _ h)
        · next hv => exact (List.mem_cons.mp h).imp (fun e => ⟨e, hv⟩) (List.mem_cons_of_mem _)
      · rcases List.mem_cons.mp h with rfl | h
        · exact .inr List.mem_cons_self
        · exact (ih h).imp id (List.mem_cons_of_mem _)

/-- Writing one byte keeps the addresses strictly rising. -/
theorem Memory.rising_writeByte {m : Memory} (hm : m.wf = true) (a : Nat) (v : Byte) :
    (m.writeByte a v).Pairwise (fun c d => c.1 < d.1) := by
  induction m with
  | nil =>
    simp only [Memory.writeByte]
    split <;> simp
  | cons c rest ih =>
    obtain ⟨k, x⟩ := c
    have rising := (Memory.wf_iff.mp hm).1
    have above : ∀ d ∈ rest, k < d.1 := Memory.wf_head hm
    simp only [Memory.writeByte]
    split
    · next hlt =>
      split
      · exact rising
      · refine List.pairwise_cons.mpr ⟨fun d hd => ?_, rising⟩
        rcases List.mem_cons.mp hd with rfl | hd
        · exact hlt
        · exact Nat.lt_trans hlt (above d hd)
    · split
      · next hk =>
        subst hk
        split
        · exact rising.of_cons
        · exact List.pairwise_cons.mpr ⟨above, rising.of_cons⟩
      · next hge hk =>
        refine List.pairwise_cons.mpr ⟨fun d hd => ?_, ih (Memory.wf_tail hm)⟩
        rcases Memory.mem_writeByte hd with ⟨rfl, _⟩ | hd
        · exact Nat.lt_of_le_of_ne (Nat.le_of_not_lt hge) (Ne.symm hk)
        · exact above d hd

/-- Writing one byte inside the address space keeps the canonical form. -/
theorem Memory.wf_writeByte {m : Memory} (hm : m.wf = true) {a : Nat} (ha : a < 2 * Config.memoryWords)
    (v : Byte) : (m.writeByte a v).wf = true := by
  refine Memory.wf_iff.mpr ⟨Memory.rising_writeByte hm a v, fun d hd => ?_⟩
  rcases Memory.mem_writeByte hd with ⟨rfl, hv⟩ | hd
  · exact ⟨hv, ha⟩
  · exact (Memory.wf_iff.mp hm).2 d hd

/-- Both bytes of every word lie inside the address space. -/
theorem highKey_lt (a : Word) : highKey a < 2 * Config.memoryWords := by
  have := a.isLt
  simp only [highKey, Config.memoryWords]
  omega

theorem lowKey_lt (a : Word) : lowKey a < 2 * Config.memoryWords :=
  Nat.lt_trans (Nat.lt_succ_self _) (highKey_lt a)

/-- R72: a word write keeps the canonical form. -/
theorem Memory.wf_write {m : Memory} (hm : m.wf = true) (a v : Word) : (m.write a v).wf = true :=
  Memory.wf_writeByte (Memory.wf_writeByte hm (lowKey_lt a) _) (highKey_lt a) _

/-- A word is its high byte over its low byte. -/
theorem highByte_append_lowByte (v : Word) : highByte v ++ lowByte v = v := by
  simp only [highByte, lowByte]
  ext i hi
  simp only [BitVec.getElem_append, BitVec.getElem_extractLsb']
  split
  · simp [BitVec.getLsbD_eq_getElem, hi]
  · next h => simp [show 8 + (i - 8) = i by omega, BitVec.getLsbD_eq_getElem, hi]

/-- R72: a write leaves every byte but the two of its word. -/
theorem Memory.readByte_write_other (m : Memory) (a v : Word) {k : Nat} (hl : k ≠ lowKey a) (hh : k ≠ highKey a) :
    (m.write a v).readByte k = m.readByte k := by
  rw [Memory.write, Memory.readByte_writeByte_other _ _ hh, Memory.readByte_writeByte_other _ _ hl]

/-- R71, R72: everything a word write can do to a word read. -/
theorem Memory.read_write {m : Memory} (hm : m.wf = true) (a v b : Word) :
    (m.write a v).read b = if b = a then v else m.read b := by
  split
  · next h =>
    subst h
    have hlow := Memory.wf_writeByte hm (lowKey_lt b) (lowByte v)
    rw [Memory.read, Memory.write, Memory.readByte_writeByte_same hlow,
      Memory.readByte_writeByte_other _ _ (by simp [lowKey, highKey]),
      Memory.readByte_writeByte_same hm, highByte_append_lowByte]
  · next h =>
    have ne : b.toNat ≠ a.toNat := fun e => h (BitVec.eq_of_toNat_eq e)
    rw [Memory.read, Memory.read, Memory.readByte_write_other, Memory.readByte_write_other] <;>
      simp only [lowKey, highKey] <;> omega

/-- Loading after a store, in a state. -/
theorem State.load_store {s : State} (hs : s.mem.wf = true) (a v b : Word) :
    (s.store a v).load b = if b = a then v else s.load b := Memory.read_write hs a v b

end Sys2Proof.Machine
end

