-- ==== Sys2Proof/Laws/PerInstr.lean ====
section
/-! SUPPORT. A fact of every instruction, one lemma for each constructor: its encoding matches its own row of
spec/opcode_table.json. -/

namespace Sys2Proof

/-- The word of an instruction has its row's match value under its row's mask. -/
def Laws.EncodeMatchesRow.Statement (i : Instr) : Prop := encode i &&& i.rowMask = i.rowMatch

/-- Two words are the same if their sixteen bits are. -/
theorem word_eq_of_bits {v w : Word} (h : ∀ i, i < 16 → v.getLsbD i = w.getLsbD i) : v = w :=
  BitVec.eq_of_getLsbD_eq fun i hi => h i hi

theorem Laws.EncodeMatchesRow.br (c : BitVec 3) (o : BitVec 9) :
    Laws.EncodeMatchesRow.Statement (.br c o) := by
  refine word_eq_of_bits fun k hk => ?_
  simp only [encode, Instr.rowMask, Instr.rowMatch, BitVec.getLsbD_and, BitVec.getLsbD_append]
  interval_cases k <;> simp

theorem Laws.EncodeMatchesRow.addReg (d a b : Reg) :
    Laws.EncodeMatchesRow.Statement (.addReg d a b) := by
  cases d <;> cases a <;> cases b <;> rfl

theorem Laws.EncodeMatchesRow.addImm (d a : Reg) (i : BitVec 5) :
    Laws.EncodeMatchesRow.Statement (.addImm d a i) := by
  refine word_eq_of_bits fun k hk => ?_
  simp only [encode, Instr.rowMask, Instr.rowMatch, BitVec.getLsbD_and, BitVec.getLsbD_append]
  interval_cases k <;> simp

theorem Laws.EncodeMatchesRow.ld (d : Reg) (o : BitVec 9) :
    Laws.EncodeMatchesRow.Statement (.ld d o) := by
  refine word_eq_of_bits fun k hk => ?_
  simp only [encode, Instr.rowMask, Instr.rowMatch, BitVec.getLsbD_and, BitVec.getLsbD_append]
  interval_cases k <;> simp

theorem Laws.EncodeMatchesRow.st (r : Reg) (o : BitVec 9) :
    Laws.EncodeMatchesRow.Statement (.st r o) := by
  refine word_eq_of_bits fun k hk => ?_
  simp only [encode, Instr.rowMask, Instr.rowMatch, BitVec.getLsbD_and, BitVec.getLsbD_append]
  interval_cases k <;> simp

theorem Laws.EncodeMatchesRow.jsr (o : BitVec 11) :
    Laws.EncodeMatchesRow.Statement (.jsr o) := by
  refine word_eq_of_bits fun k hk => ?_
  simp only [encode, Instr.rowMask, Instr.rowMatch, BitVec.getLsbD_and, BitVec.getLsbD_append]
  interval_cases k <;> simp

theorem Laws.EncodeMatchesRow.jsrr (b : Reg) :
    Laws.EncodeMatchesRow.Statement (.jsrr b) := by
  cases b <;> rfl

theorem Laws.EncodeMatchesRow.andReg (d a b : Reg) :
    Laws.EncodeMatchesRow.Statement (.andReg d a b) := by
  cases d <;> cases a <;> cases b <;> rfl

theorem Laws.EncodeMatchesRow.andImm (d a : Reg) (i : BitVec 5) :
    Laws.EncodeMatchesRow.Statement (.andImm d a i) := by
  refine word_eq_of_bits fun k hk => ?_
  simp only [encode, Instr.rowMask, Instr.rowMatch, BitVec.getLsbD_and, BitVec.getLsbD_append]
  interval_cases k <;> simp

theorem Laws.EncodeMatchesRow.ldr (d b : Reg) (o : BitVec 6) :
    Laws.EncodeMatchesRow.Statement (.ldr d b o) := by
  refine word_eq_of_bits fun k hk => ?_
  simp only [encode, Instr.rowMask, Instr.rowMatch, BitVec.getLsbD_and, BitVec.getLsbD_append]
  interval_cases k <;> simp

theorem Laws.EncodeMatchesRow.str (r b : Reg) (o : BitVec 6) :
    Laws.EncodeMatchesRow.Statement (.str r b o) := by
  refine word_eq_of_bits fun k hk => ?_
  simp only [encode, Instr.rowMask, Instr.rowMatch, BitVec.getLsbD_and, BitVec.getLsbD_append]
  interval_cases k <;> simp

theorem Laws.EncodeMatchesRow.rti :
    Laws.EncodeMatchesRow.Statement (.rti) := rfl

theorem Laws.EncodeMatchesRow.not (d a : Reg) :
    Laws.EncodeMatchesRow.Statement (.not d a) := by
  cases d <;> cases a <;> rfl

theorem Laws.EncodeMatchesRow.ldi (d : Reg) (o : BitVec 9) :
    Laws.EncodeMatchesRow.Statement (.ldi d o) := by
  refine word_eq_of_bits fun k hk => ?_
  simp only [encode, Instr.rowMask, Instr.rowMatch, BitVec.getLsbD_and, BitVec.getLsbD_append]
  interval_cases k <;> simp

theorem Laws.EncodeMatchesRow.sti (r : Reg) (o : BitVec 9) :
    Laws.EncodeMatchesRow.Statement (.sti r o) := by
  refine word_eq_of_bits fun k hk => ?_
  simp only [encode, Instr.rowMask, Instr.rowMatch, BitVec.getLsbD_and, BitVec.getLsbD_append]
  interval_cases k <;> simp

theorem Laws.EncodeMatchesRow.jmp (b : Reg) :
    Laws.EncodeMatchesRow.Statement (.jmp b) := by
  cases b <;> rfl

theorem Laws.EncodeMatchesRow.res :
    Laws.EncodeMatchesRow.Statement (.res) := rfl

theorem Laws.EncodeMatchesRow.lea (d : Reg) (o : BitVec 9) :
    Laws.EncodeMatchesRow.Statement (.lea d o) := by
  refine word_eq_of_bits fun k hk => ?_
  simp only [encode, Instr.rowMask, Instr.rowMatch, BitVec.getLsbD_and, BitVec.getLsbD_append]
  interval_cases k <;> simp

theorem Laws.EncodeMatchesRow.trap (v : BitVec 8) :
    Laws.EncodeMatchesRow.Statement (.trap v) := by
  refine word_eq_of_bits fun k hk => ?_
  simp only [encode, Instr.rowMask, Instr.rowMatch, BitVec.getLsbD_and, BitVec.getLsbD_append]
  interval_cases k <;> simp

end Sys2Proof
end

