-- ==== Sys2Proof/Laws/Trap.lean ====
section
/-! SUPPORT. What a console read, a string walk and the service routines can do. -/

namespace Sys2Proof.Machine

open Sys2Proof

/-- R47, R214 (92 D6): everything the next answer of a console input can be: a byte, of its front or of an infinite
INPUT, end of input, or none yet. -/
theorem ConsoleInput.next_cases (c : ConsoleInput) :
    (∃ b rest, c.Gives b rest ∧ c.next = some (some b, rest)) ∨
    (c = ⟨[], .ended⟩ ∧ c.next = some (none, c)) ∨ (c = ⟨[], .silent⟩ ∧ c.next = none) := by
  obtain ⟨bytes, tail⟩ := c
  cases bytes with
  | cons b rest => exact .inl ⟨b, ⟨rest, tail⟩, .inl rfl, rfl⟩
  | nil =>
    cases tail with
    | silent => exact .inr (.inr ⟨rfl, rfl⟩)
    | ended => exact .inr (.inl ⟨rfl, rfl⟩)
    | stream id n => exact .inl ⟨_, _, .inr ⟨id, n, rfl, rfl, rfl⟩, rfl⟩

/-- 92 D6: an input that gives a byte has it as its next answer. -/
theorem ConsoleInput.next_eq_of_gives {c rest : ConsoleInput} {b : Byte} (h : c.Gives b rest) :
    c.next = some (some b, rest) := by
  obtain rfl | ⟨id, n, rfl, rfl, rfl⟩ := h <;> rfl

/-- R47: the next answer is the first of the sequence, and what is left is the sequence without it. -/
theorem ConsoleInput.answerAt_next {c rest : ConsoleInput} {answer : Option Byte}
    (h : c.next = some (answer, rest)) :
    c.answerAt 0 = some answer ∧ ∀ k, rest.answerAt k = c.answerAt (k + 1) := by
  obtain ⟨bytes, tail⟩ := c
  cases bytes with
  | cons b bs =>
    cases h
    exact ⟨rfl, fun k => by simp [ConsoleInput.answerAt, Nat.add_sub_add_right]⟩
  | nil =>
    cases tail with
    | silent => cases h
    | ended => cases h; exact ⟨rfl, fun _ => rfl⟩
    | stream id n =>
      cases h
      exact ⟨rfl, fun k => by simp [ConsoleInput.answerAt, Nat.add_assoc, Nat.add_comm 1 k]⟩

/-- R47, R214: the three cases of a console read. -/
theorem State.consoleRead_cases (s : State) :
    (∃ b rest, s.input.Gives b rest ∧ s.consoleRead = some (some b, s.setInput rest)) ∨
    (s.input = ⟨[], .ended⟩ ∧ s.consoleRead = some (none, s)) ∨
    (s.input = ⟨[], .silent⟩ ∧ s.consoleRead = none) := by
  rcases s.input.next_cases with ⟨b, rest, h, e⟩ | ⟨h, e⟩ | ⟨h, e⟩
  · exact .inl ⟨b, rest, h, by simp [State.consoleRead, e]⟩
  · exact .inr (.inl ⟨h, by simp [State.consoleRead, e, State.setInput]⟩)
  · exact .inr (.inr ⟨h, by simp [State.consoleRead, e]⟩)

/-- R212, R213: everything GETC can do from its console read on: take a byte, take end of input, or wait. -/
theorem State.serviceGetc_cases (s : State) :
    (∃ b rest, s.input.Gives b rest ∧ s.serviceGetc =
      (((s.setInput rest).writeReg .r0 (zext16 b)).setCond (setcc (zext16 b))).setRoutine none) ∨
    (s.input = ⟨[], .ended⟩ ∧
      s.serviceGetc = ((s.writeReg .r0 0x0000#16).setCond condZro).setRoutine none) ∨
    (s.input = ⟨[], .silent⟩ ∧ s.serviceGetc = s.setRoutine (some .getc)) := by
  rcases s.consoleRead_cases with ⟨b, rest, h, e⟩ | ⟨h, e⟩ | ⟨h, e⟩
  · exact .inl ⟨b, rest, h, by simp [State.serviceGetc, e, State.writeRegFlags_eq, answerWord]⟩
  · exact .inr (.inl ⟨h, by simp [State.serviceGetc, e, State.writeRegFlags_eq, answerWord]; rfl⟩)
  · exact .inr (.inr ⟨h, by simp [State.serviceGetc, e]⟩)

/-- R213: the byte stored is the byte echoed. -/
theorem lowByte_answerWord (answer : Option Byte) : lowByte (answerWord answer) = answer.getD 0#8 := by
  cases answer with
  | none => rfl
  | some b =>
    simp only [lowByte, answerWord, zext16, Option.getD_some]
    ext i hi
    have wide : i < 16 := Nat.lt_trans hi (by decide)
    simp [BitVec.getLsbD_eq_getElem, hi, wide]

/-- R212, R218, R219: everything IN can do from its console read on: take a byte and echo it, take end of input and
echo 0x00, or wait. -/
theorem State.serviceInRead_cases (s : State) :
    (∃ b rest, s.input.Gives b rest ∧ s.serviceInRead =
      ((((s.setInput rest).writeReg .r0 (zext16 b)).consoleWrite [b]).setCond
        (setcc (zext16 b))).setRoutine none) ∨
    (s.input = ⟨[], .ended⟩ ∧
      s.serviceInRead = (((s.writeReg .r0 0x0000#16).consoleWrite [0x00#8]).setCond condZro).setRoutine none) ∨
    (s.input = ⟨[], .silent⟩ ∧ s.serviceInRead = s.setRoutine (some .inp)) := by
  rcases s.consoleRead_cases with ⟨b, rest, h, e⟩ | ⟨h, e⟩ | ⟨h, e⟩
  · refine .inl ⟨b, rest, h, ?_⟩
    have echo : lowByte (zext16 b) = b := lowByte_answerWord (some b)
    simp [State.serviceInRead, e, answerWord, echo]
  · exact .inr (.inl ⟨h, by simp [State.serviceInRead, e, answerWord]; rfl⟩)
  · exact .inr (.inr ⟨h, by simp [State.serviceInRead, e]⟩)

/-- R213: the answer's word is never NEG. -/
theorem setcc_answerWord (answer : Option Byte) :
    setcc (answerWord answer) = if answer.getD 0#8 = 0#8 then condZro else condPos := by
  cases answer with
  | none => rfl
  | some b => revert b; decide

/-- R216, R217: a string walk that ends gives the words before the first zero word. -/
theorem Memory.stringAt_eq_some {m : Memory} {fuel : Nat} {a : Word} {ws : List Word}
    (h : m.stringAt fuel a = some ws) :
    ws.length < fuel ∧ m.read (a + BitVec.ofNat 16 ws.length) = 0x0000#16 ∧
      ws = (List.range ws.length).map (fun j => m.read (a + BitVec.ofNat 16 j)) ∧ ∀ w ∈ ws, w ≠ 0x0000#16 := by
  induction fuel generalizing a ws with
  | zero => cases h
  | succ n ih =>
    rw [Memory.stringAt] at h
    split at h
    · next hz =>
      cases h
      exact ⟨Nat.succ_pos n, by simpa using hz, rfl, by simp⟩
    · next hz =>
      cases hr : m.stringAt n (a + 1#16) with
      | none => simp only [hr, Option.map_none, reduceCtorEq] at h
      | some us =>
        obtain ⟨hlen, hzero, hws, hne⟩ := ih hr
        simp only [hr, Option.map_some, Option.some.injEq] at h
        subst h
        have next : ∀ j : Nat, a + 1#16 + BitVec.ofNat 16 j = a + BitVec.ofNat 16 (j + 1) := fun j => by
          rw [BitVec.add_assoc, BitVec.add_comm 1#16, ← BitVec.ofNat_add]
        refine ⟨Nat.succ_lt_succ hlen, ?_, ?_, ?_⟩
        · rw [List.length_cons, ← next]; exact hzero
        · rw [List.length_cons, List.range_succ_eq_map, List.map_cons, List.map_map]
          simp only [BitVec.add_zero, List.cons.injEq, true_and]
          rw [hws]
          simp only [List.length_map, List.length_range]
          exact List.map_congr_left fun j _ => by rw [next]; rfl
        · intro w hw
          rcases List.mem_cons.mp hw with rfl | hw
          · exact hz
          · exact hne w hw

/-- R216, R217: a string walk that does not end has met no zero word. -/
theorem Memory.stringAt_eq_none {m : Memory} {fuel : Nat} {a : Word} (h : m.stringAt fuel a = none) :
    ∀ j, j < fuel → m.read (a + BitVec.ofNat 16 j) ≠ 0x0000#16 := by
  induction fuel generalizing a with
  | zero => intro j hj; omega
  | succ n ih =>
    rw [Memory.stringAt] at h
    split at h
    · cases h
    · next hz =>
      have hr : m.stringAt n (a + 1#16) = none := by simpa using h
      intro j hj
      cases j with
      | zero => simpa using hz
      | succ j =>
        have := ih hr j (by omega)
        rwa [BitVec.add_assoc, BitVec.add_comm 1#16, ← BitVec.ofNat_add] at this

/-- R216: what PUTS can do: the bytes of a string that ends, or the start of one that does not. -/
theorem State.servicePuts_cases (s : State) :
    (∃ ws, s.mem.stringAt Config.memoryWords (s.reg .r0) = some ws ∧
      s.servicePuts = s.consoleWrite (ws.flatMap putsBytes)) ∨
    (s.mem.stringAt Config.memoryWords (s.reg .r0) = none ∧
      s.servicePuts = s.setRoutine (some (.puts (s.reg .r0)))) := by
  cases h : s.mem.stringAt Config.memoryWords (s.reg .r0) with
  | none => exact .inr ⟨rfl, by simp [State.servicePuts, h]⟩
  | some ws => exact .inl ⟨ws, rfl, by simp [State.servicePuts, h]⟩

/-- R220: what PUTSP can do: the bytes of a string that ends, or the start of one that does not. -/
theorem State.servicePutsp_cases (s : State) :
    (∃ ws, s.mem.stringAt Config.memoryWords (s.reg .r0) = some ws ∧
      s.servicePutsp = s.consoleWrite (ws.flatMap putspBytes)) ∨
    (s.mem.stringAt Config.memoryWords (s.reg .r0) = none ∧
      s.servicePutsp = s.setRoutine (some (.putsp (s.reg .r0)))) := by
  cases h : s.mem.stringAt Config.memoryWords (s.reg .r0) with
  | none => exact .inr ⟨rfl, by simp [State.servicePutsp, h]⟩
  | some ws => exact .inl ⟨ws, rfl, by simp [State.servicePutsp, h]⟩

/-- R211: the six defined vectors and their services, and none for the others. -/
theorem serviceOf_cases : ∀ v : BitVec 8,
    (v = 0x20#8 ∧ serviceOf v = some .getc) ∨ (v = 0x21#8 ∧ serviceOf v = some .out) ∨
    (v = 0x22#8 ∧ serviceOf v = some .puts) ∨ (v = 0x23#8 ∧ serviceOf v = some .inp) ∨
    (v = 0x24#8 ∧ serviceOf v = some .putsp) ∨ (v = 0x25#8 ∧ serviceOf v = some .halt) ∨
    ((v.toNat < 0x20 ∨ 0x25 < v.toNat) ∧ serviceOf v = none) := by
  decide

end Sys2Proof.Machine
end

