-- ==== Sys2Proof/Laws/Step.lean ====
section
/-! SUPPORT. What a step can do (R44, R212, R302). -/

namespace Sys2Proof.Machine

open Sys2Proof

/-- R302, R212, R44: a step runs the fetched instruction, goes on with a service routine, or changes nothing. -/
theorem step_cases (s : State) :
    (s.run = .running ∧ s.routine = none ∧ step s = exec (decode s.fetchWord) s.advancePc) ∨
    (∃ r, s.run = .running ∧ s.routine = some r ∧ step s = .next (s.resume r)) ∨
    (s.run ≠ .running ∧ step s = .next s) := by
  unfold step
  cases hrun : s.run with
  | running =>
    cases hr : s.routine with
    | none => exact .inl ⟨rfl, rfl, rfl⟩
    | some r => exact .inr (.inl ⟨r, rfl, rfl, rfl⟩)
  | halted => exact .inr (.inr ⟨by simp, rfl⟩)
  | faulted f => exact .inr (.inr ⟨by simp, rfl⟩)

/-- R301: a run of k + 1 steps is the first step and then a run of k steps. -/
theorem run_succ {s t : State} (k : Nat) (h : step s = .next t) :
    Sys2Proof.core.run (k + 1) s = Sys2Proof.core.run k t := by
  have h' : Sys2Proof.core.step s = .next t := h
  simp only [Host.Core.run, h']

end Sys2Proof.Machine
end

