-- ==== Sys2Proof/Tests/Slice0.lean ====
section
/-! SUPPORT. Tests. Expected results are from the encoding tables of 30_encoding.md and the vectors of
95_test_vectors.md (named in the comments). After them, for each statement with hypotheses, a state and operands that
meet all of them. -/

namespace Sys2Proof.Tests

open Sys2Proof Sys2Proof.Machine

/-! ### WellFormed: an ill-formed term for each check -/

theorem test_wellFormed_refuses_rti : Instr.wellFormed .rti = false := by decide

theorem test_wellFormed_refuses_res : Instr.wellFormed .res = false := by decide

theorem test_wellFormed_refuses_vectors_outside :
    Instr.wellFormed (.trap 0x1F#8) = false ∧ Instr.wellFormed (.trap 0x26#8) = false := by decide

theorem test_wellFormed_accepts_the_six_vectors :
    Instr.wellFormed (.trap 0x20#8) = true ∧ Instr.wellFormed (.trap 0x25#8) = true ∧
    serviceOf 0x20#8 = some .getc ∧ serviceOf 0x25#8 = some .halt := by decide

/-! ### Decode: one word for each constructor, its bits written out from the formats R102 to R112 -/

/-- R105: op 0000, n 1, z 0, p 1, PCoffset9 100000001. -/
theorem test_decode_br : decode 0b0000101100000001#16 = .br 0b101#3 0b100000001#9 := by decide

/-- R102: op 0001, DR 011, SR1 001, 0, unused 11, SR2 010 (V-OP-5). -/
theorem test_decode_addReg : decode 0b0001011001011010#16 = .addReg .r3 .r1 .r2 := by decide

/-- R103: op 0001, DR 010, SR1 101, 1, imm5 10110. -/
theorem test_decode_addImm : decode 0b0001010101110110#16 = .addImm .r2 .r5 0b10110#5 := by decide

/-- R109: op 0010, DR 110, PCoffset9 011110001. -/
theorem test_decode_ld : decode 0b0010110011110001#16 = .ld .r6 0b011110001#9 := by decide

/-- R109: op 0011, SR 100, PCoffset9 100000010. -/
theorem test_decode_st : decode 0b0011100100000010#16 = .st .r4 0b100000010#9 := by decide

/-- R107: op 0100, 1, PCoffset11 10000000011. -/
theorem test_decode_jsr : decode 0b0100110000000011#16 = .jsr 0b10000000011#11 := by decide

/-- R108: op 0100, 0, unused 11, BaseR 110, unused 111111. -/
theorem test_decode_jsrr : decode 0b0100011110111111#16 = .jsrr .r6 := by decide

/-- R102: op 0101, DR 111, SR1 010, 0, unused 01, SR2 100. -/
theorem test_decode_andReg : decode 0b0101111010001100#16 = .andReg .r7 .r2 .r4 := by decide

/-- R103: op 0101, DR 001, SR1 011, 1, imm5 01111. -/
theorem test_decode_andImm : decode 0b0101001011101111#16 = .andImm .r1 .r3 0b01111#5 := by decide

/-- R110: op 0110, DR 101, BaseR 010, offset6 100001. -/
theorem test_decode_ldr : decode 0b0110101010100001#16 = .ldr .r5 .r2 0b100001#6 := by decide

/-- R110: op 0111, SR 001, BaseR 110, offset6 011110. -/
theorem test_decode_str : decode 0b0111001110011110#16 = .str .r1 .r6 0b011110#6 := by decide

/-- R112: op 1000, the rest not read (V-RS-3). -/
theorem test_decode_rti : decode 0b1000111111111111#16 = .rti := by decide

/-- R104: op 1001, DR 000, SR1 010, unused 111111 (V-OP-17). -/
theorem test_decode_not : decode 0b1001000010111111#16 = .not .r0 .r2 := by decide

/-- R109: op 1010, DR 101, PCoffset9 000001001 (V-LD-3). -/
theorem test_decode_ldi : decode 0b1010101000001001#16 = .ldi .r5 0b000001001#9 := by decide

/-- R109: op 1011, SR 011, PCoffset9 111111110. -/
theorem test_decode_sti : decode 0b1011011111111110#16 = .sti .r3 0b111111110#9 := by decide

/-- R106: op 1100, unused 101, BaseR 011, unused 010101. -/
theorem test_decode_jmp : decode 0b1100101011010101#16 = .jmp .r3 := by decide

/-- R112: op 1101, the rest not read (V-RS-2). -/
theorem test_decode_res : decode 0b1101000100100011#16 = .res := by decide

/-- R109: op 1110, DR 001, PCoffset9 000001001 (V-LD-9). -/
theorem test_decode_lea : decode 0b1110001000001001#16 = .lea .r1 0b000001001#9 := by decide

/-- R111: op 1111, unused 1111, trapvect8 00100101 (V-TR-15). -/
theorem test_decode_trap : decode 0b1111111100100101#16 = .trap 0x25#8 := by decide

/-- R102, R107, R110: three words encoded. -/
theorem test_encode :
    encode (.addReg .r3 .r1 .r2) = 0x1642#16 ∧ encode (.jsr 0x7FF#11) = 0x4FFF#16 ∧
    encode (.str .r1 .r6 0x3F#6) = 0x73BF#16 := by decide

/-- The number of a table row's word is the word. -/
theorem test_decodeTableWord : decodeTableWord 16 0x54A0 = some (.andImm .r2 .r2 0#5) := by decide

/-- V-SEXT-1, 2, 4, 6, 8, 10, 11: sign extension at its boundaries. -/
theorem test_sext :
    sext 0b01011#5 = 0x000B#16 ∧ sext 0b11011#5 = 0xFFFB#16 ∧ sext 0b10000#5 = 0xFFF0#16 ∧
    sext 0b100000#6 = 0xFFE0#16 ∧ sext 0x100#9 = 0xFF00#16 ∧ sext 0x400#11 = 0xFC00#16 ∧
    sext 0x3FF#11 = 0x03FF#16 := by decide

/-- V-CC-1 to V-CC-5. -/
theorem test_setcc :
    setcc 0x0000#16 = condZro ∧ setcc 0x0001#16 = condPos ∧ setcc 0x7FFF#16 = condPos ∧
    setcc 0x8000#16 = condNeg ∧ setcc 0xFFFF#16 = condNeg := by decide

/-! ### One step on a small state -/

/-- The reset state with PC at `pc`, the words of `image` in memory, R1 and R2 set, and COND at `cond`. -/
def small (pc : Word) (image : List (Word × Word)) (r1 r2 cond : Word) : State :=
  { State.reset with
    pc := pc
    mem := Memory.loadImage [] image
    gpr := ⟨0, r1, r2, 0, 0, 0, 0, 0⟩
    cond := cond }

/-- The reset state about to run the word `w` at 0x3000, with R1, R2 and COND set. -/
def running (w r1 r2 cond : Word) : State := small 0x3000#16 [(0x3000#16, w)] r1 r2 cond

/-- The state a result answers. -/
def after : Result → Option State
  | .next t => some t
  | _ => none

/-- V-OP-2: signed overflow of ADD is stored and reads as NEG. -/
theorem test_add_overflow :
    (after (step (running 0x1642#16 0x7FFF#16 1#16 condZro))).map (fun t => (t.reg .r3, t.cond, t.pc)) =
      some (0x8000#16, condNeg, 0x3001#16) := by decide

/-- V-OP-8: ADD of imm5 = -1. -/
theorem test_addImm_negative :
    (after (step (running 0x127F#16 0#16 0#16 condZro))).map (fun t => (t.reg .r1, t.cond)) =
      some (0xFFFF#16, condNeg) := by decide

/-- V-OP-12. -/
theorem test_and :
    (after (step (running 0x5042#16 0x8001#16 0xF00F#16 condPos))).map (fun t => (t.reg .r0, t.cond)) =
      some (0x8001#16, condNeg) := by decide

/-- V-OP-15: the immediate of AND is sign-extended. -/
theorem test_andImm_extends :
    (after (step (running 0x54B0#16 0#16 0xABCD#16 condPos))).map (fun t => (t.reg .r2, t.cond)) =
      some (0xABC0#16, condNeg) := by decide

/-- V-OP-21: NOT with its unused bits 0. -/
theorem test_not :
    (after (step (running 0x9080#16 0#16 0x8000#16 condNeg))).map (fun t => (t.reg .r0, t.cond)) =
      some (0x7FFF#16, condPos) := by decide

/-- V-CT-1 and V-CT-2: BR taken and not taken under NEG. -/
theorem test_br :
    (after (step (running 0x0805#16 0#16 0#16 condNeg))).map (·.pc) = some 0x3006#16 ∧
    (after (step (running 0x0605#16 0#16 0#16 condNeg))).map (·.pc) = some 0x3001#16 := by decide

/-- V-CT-8: the fetch at 0xFFFF wraps PC, and the target counts on from there. -/
theorem test_br_wraps :
    (after (step (small 0xFFFF#16 [(0xFFFF#16, 0x0E01#16)] 0#16 0#16 condPos))).map (·.pc) = some 1#16 := by
  decide

/-- R152: JMP R1. -/
theorem test_jmp :
    (after (step (running 0xC040#16 0x1234#16 0#16 condZro))).map (·.pc) = some 0x1234#16 := by decide

/-- V-CT-14. -/
theorem test_jsr :
    (after (step (running 0x4C00#16 0#16 0#16 condZro))).map (fun t => (t.reg .r7, t.pc)) =
      some (0x3001#16, 0x2C01#16) := by decide

/-- V-CT-16 and V-CT-17: JSRR R2, and JSRR R7, which falls through. -/
theorem test_jsrr :
    (after (step (running 0x4080#16 0#16 0x4000#16 condZro))).map (fun t => (t.reg .r7, t.pc)) =
      some (0x3001#16, 0x4000#16) ∧
    (after (step ((running 0x41C0#16 0#16 0#16 condZro).writeReg .r7 0x5000#16))).map
      (fun t => (t.reg .r7, t.pc)) = some (0x3001#16, 0x3001#16) := by decide

/-- V-LD-2: LD reads its own word. -/
theorem test_ld :
    (after (step (running 0x21FF#16 0#16 0#16 condZro))).map (fun t => (t.reg .r0, t.cond)) =
      some (0x21FF#16, condPos) := by decide

/-- V-LD-4: the flags of LDI are those of the datum, not of the pointer. -/
theorem test_ldi :
    (after (step (small 0x3000#16 [(0x3000#16, 0xAA09#16), (0x300A#16, 0x4000#16)] 0#16 0#16 condPos))).map
      (fun t => (t.reg .r5, t.cond)) = some (0#16, condZro) := by decide

/-- V-LD-7 and V-LD-8: the address of LDR wraps; the base is read before DR is written. -/
theorem test_ldr :
    (after (step (small 0x3000#16 [(0x3000#16, 0x685F#16), (0x000F#16, 2#16)] 0xFFF0#16 0#16 condZro))).map
      (fun t => (t.reg .r4, t.cond)) = some (2#16, condPos) ∧
    (after (step (small 0x3000#16 [(0x3000#16, 0x6240#16), (0x4000#16, 9#16)] 0x4000#16 0#16 condZro))).map
      (fun t => t.reg .r1) = some 9#16 := by decide

/-- V-LD-11: LEA sets the flags from the address. -/
theorem test_lea :
    (after (step (small 0x7F00#16 [(0x7F00#16, 0xE0FF#16)] 0#16 0#16 condZro))).map
      (fun t => (t.reg .r0, t.cond)) = some (0x8000#16, condNeg) := by decide

/-- V-ST-1: ST, with COND kept; and the memory's bytes. -/
theorem test_st :
    (after (step (running 0x3404#16 0#16 0xABCD#16 condNeg))).map (fun t => (t.load 0x3005#16, t.cond, t.mem)) =
      some (0xABCD#16, condNeg, [(0x6000, 0x04#8), (0x6001, 0x34#8), (0x600A, 0xCD#8), (0x600B, 0xAB#8)]) := by
  decide

/-- V-ST-3: STI writes through the pointer and leaves the pointer. -/
theorem test_sti :
    (after (step (small 0x3000#16 [(0x3000#16, 0xB20A#16), (0x300B#16, 0x4000#16)] 0xFFFE#16 0#16 condZro))).map
      (fun t => (t.load 0x4000#16, t.load 0x300B#16)) = some (0xFFFE#16, 0x4000#16) := by decide

/-- V-ST-4: the address of STR wraps. -/
theorem test_str :
    (after (step (running 0x73BF#16 0x1234#16 0#16 condZro))).map (fun t => t.load 0xFFFF#16) =
      some 0x1234#16 := by decide

/-- A store of 0x0000 removes the word's bytes, so that equal memories are equal data. -/
theorem test_store_zero_is_canonical :
    (after (step (running 0x31FF#16 0#16 0#16 condZro))).map (·.mem) = some [] := by decide

/-- V-TR-4: GETC of 0xFF is POS, never NEG. -/
theorem test_getc :
    (after (step ((running 0xF020#16 0#16 0#16 condZro).setInput ⟨[0xFF#8], .ended⟩))).map
      (fun t => (t.reg .r0, t.cond, t.reg .r7, t.pc)) =
        some (0x00FF#16, condPos, 0x3001#16, 0x3001#16) := by decide

/-- V-TR-3: GETC at end of input. -/
theorem test_getc_end :
    (after (step (running 0xF020#16 0#16 0#16 condPos))).map (fun t => (t.reg .r0, t.cond)) =
      some (0#16, condZro) := by decide

/-- V-TR-5: OUT writes the low byte. -/
theorem test_out :
    (after (step ((running 0xF021#16 0#16 0#16 condZro).writeReg .r0 0x1248#16))).map (·.out) =
      some [0x48#8] := by decide

/-- V-TR-7 and V-TR-9: PUTS drops high bytes, stops only at a whole zero word, and wraps. -/
theorem test_puts :
    (after (step ((small 0x3000#16 [(0x3000#16, 0xF022#16), (0x4000#16, 0x4100#16), (0x4001#16, 0x0169#16)]
      0#16 0#16 condZro).writeReg .r0 0x4000#16))).map (·.out) = some [0x00#8, 0x69#8] ∧
    (after (step ((small 0x3000#16 [(0x3000#16, 0xF022#16), (0xFFFF#16, 0x0041#16), (0x0000#16, 0x0042#16)]
      0#16 0#16 condZro).writeReg .r0 0xFFFF#16))).map (·.out) = some [0x41#8, 0x42#8] := by decide

/-- V-TR-10: IN writes its prompt, then echoes the byte. -/
theorem test_in :
    (after (step ((running 0xF023#16 0#16 0#16 condZro).setInput ⟨[0x79#8], .ended⟩))).map
      (fun t => (t.reg .r0, t.cond, t.out)) = some (0x0079#16, condPos, Config.inPrompt ++ [0x79#8]) := by
  rfl

/-- V-TR-12 and V-TR-13: PUTSP. -/
theorem test_putsp :
    (after (step ((small 0x3000#16 [(0x3000#16, 0xF024#16), (0x4000#16, 0x6261#16), (0x4001#16, 0x0063#16)]
      0#16 0#16 condZro).writeReg .r0 0x4000#16))).map (·.out) = some [0x61#8, 0x62#8, 0x63#8] ∧
    (after (step ((small 0x3000#16 [(0x3000#16, 0xF024#16), (0x4000#16, 0x4100#16)] 0#16 0#16 condZro).writeReg
      .r0 0x4000#16))).map (·.out) = some [0x00#8, 0x41#8] := by decide

/-- V-TR-14: HALT. -/
theorem test_halt :
    (after (step (running 0xF025#16 0#16 0#16 condZro))).map (fun t => (t.run, t.exitCode, t.out, t.reg .r7)) =
      some (.halted, some 0, Config.haltNotice, 0x3001#16) := by rfl

/-- V-TR-16: an unknown vector faults, with R7 written. -/
theorem test_unknown_vector :
    (after (step (running 0xF026#16 0#16 0#16 condZro))).map (fun t => (t.run, t.reg .r7, t.pc)) =
      some (.faulted (.unknownTrapVector 0x3000#16 0x26#8), 0x3001#16, 0x3001#16) := by decide

/-- V-RS-1. -/
theorem test_rti :
    (after (step (running 0x8000#16 0#16 0#16 condZro))).map (fun t => (t.run, t.pc, t.reg .r7)) =
      some (.faulted (.illegalOpcode 0x3000#16 0x8#4), 0x3001#16, 0#16) := by decide

/-- V-RS-2. -/
theorem test_res :
    (after (step (small 0x4000#16 [(0x4000#16, 0xD123#16)] 0#16 0#16 condZro))).map (fun t => (t.run, t.pc)) =
      some (.faulted (.illegalOpcode 0x4000#16 0xD#4), 0x4001#16) := by decide

/-- The instruction placed by `withFetchWord` is the first one that runs after reset. -/
theorem test_withFetchWord :
    (after (step (State.reset.withFetchWord 16 0x1021))).map (fun t => (t.reg .r0, t.pc)) =
      some (1#16, 0x3001#16) := by decide

/-! ### Hypotheses that can be met -/

/-- A memory with no zero word, in canonical form. -/
def fullMemory : Memory := (List.range 65536).map fun n => (2 * n, 0x41#8)

theorem readByte_full {keys : List Nat} {n : Nat} (h : n ∈ keys) :
    Memory.readByte (keys.map fun k => (2 * k, 0x41#8)) (2 * n) = 0x41#8 := by
  induction keys with
  | nil => cases h
  | cons k rest ih =>
    simp only [List.map_cons, Memory.readByte]
    split
    · rfl
    · next hk => exact ih ((List.mem_cons.mp h).resolve_left fun e => hk (by rw [e]))

theorem fullMemory_has_no_zero_word (a : Word) : fullMemory.read a ≠ 0x0000#16 := by
  have low : fullMemory.readByte (lowKey a) = 0x41#8 := readByte_full (List.mem_range.mpr a.isLt)
  intro h
  have hbit := congrArg (fun w => w.getLsbD 0) h
  simp only [Memory.read, low, BitVec.getLsbD_append] at hbit
  rw [if_pos (by decide)] at hbit
  exact absurd hbit (by decide)

/-- The reset state with the memory `m`. -/
def withMemory (m : Memory) : State := { State.reset with mem := m }

theorem withMemory_meets (m : Memory) (h : ∀ a, m.read a ≠ 0x0000#16) :
    (withMemory m).ready ∧ ∀ a, (withMemory m).load a ≠ 0x0000#16 := ⟨⟨rfl, rfl⟩, h⟩

/-- EndlessStringsAreWrittenForEver: a ready state with no zero word. -/
theorem test_witness_endless_strings :
    (withMemory fullMemory).ready ∧ ∀ a, (withMemory fullMemory).load a ≠ 0x0000#16 :=
  withMemory_meets fullMemory fullMemory_has_no_zero_word

/-- EndlessStringsAreWrittenForEver: a ready state with a zero word. -/
theorem test_witness_ending_strings : State.reset.ready ∧ State.reset.load 0#16 = 0x0000#16 := ⟨⟨rfl, rfl⟩, rfl⟩

/-- The decoding clauses: a word for each mask and match value. The other bits are all ones. -/
theorem test_witness_masks :
    (0x1FDF#16 &&& 0xF020#16 = 0x1000#16) ∧ (0x1FFF#16 &&& 0xF020#16 = 0x1020#16) ∧
    (0x5FDF#16 &&& 0xF020#16 = 0x5000#16) ∧ (0x5FFF#16 &&& 0xF020#16 = 0x5020#16) ∧
    (0x9FFF#16 &&& 0xF000#16 = 0x9000#16) ∧ (0x0FFF#16 &&& 0xF000#16 = 0x0000#16) ∧
    (0xCFFF#16 &&& 0xF000#16 = 0xC000#16) ∧ (0x4FFF#16 &&& 0xF800#16 = 0x4800#16) ∧
    (0x47FF#16 &&& 0xF800#16 = 0x4000#16) ∧ (0x2FFF#16 &&& 0xF000#16 = 0x2000#16) ∧
    (0xAFFF#16 &&& 0xF000#16 = 0xA000#16) ∧ (0x6FFF#16 &&& 0xF000#16 = 0x6000#16) ∧
    (0xEFFF#16 &&& 0xF000#16 = 0xE000#16) ∧ (0x3FFF#16 &&& 0xF000#16 = 0x3000#16) ∧
    (0xBFFF#16 &&& 0xF000#16 = 0xB000#16) ∧ (0x7FFF#16 &&& 0xF000#16 = 0x7000#16) ∧
    (0xFFFF#16 &&& 0xF000#16 = 0xF000#16) ∧ (0x8FFF#16 &&& 0xF000#16 = 0x8000#16) ∧
    (0xDFFF#16 &&& 0xF000#16 = 0xD000#16) := by decide

/-- EveryWordDecodesToOneRow: two words with the same named bits, and an instruction whose row the word matches. -/
theorem test_witness_named_bits :
    0x165A#16 &&& (decode 0x1642#16).namedBits = 0x1642#16 &&& (decode 0x1642#16).namedBits ∧
    0x1642#16 &&& (Instr.addReg .r0 .r0 .r0).rowMask = (Instr.addReg .r0 .r0 .r0).rowMatch := by decide

/-- CanonicalMemoriesAreDeterminedByTheirWords: two memories in canonical form. -/
theorem test_witness_canonical :
    Memory.wf [(0, 1#8), (131071, 0xFF#8)] = true ∧ Memory.wf [(0, 0#8)] = false ∧
    Memory.wf [(1, 1#8), (0, 1#8)] = false ∧ Memory.wf [(131072, 1#8)] = false := by decide

/-- LaunchLoadsTheImage: an image with no address twice. -/
theorem test_witness_launch :
    ([(0x3000#16, 0xF025#16), (0xFFFF#16, 1#16)].map Prod.fst).Nodup ∧
    (0x0000#16 : Word) ∉ [(0x3000#16, 0xF025#16), (0xFFFF#16, 1#16)].map Prod.fst := by decide

/-- RegisterFileIndices: the first index outside. -/
theorem test_witness_slots : 9 < 10 ∧ (State.reset.readSlot 9).toOption = some condZro := by decide

/-- StoreToTheNextAddressIsFetched: ST, STI and STR to the next address. -/
theorem test_witness_store_next :
    let s := running 0x3200#16 0x14A5#16 0#16 condZro
    let u := small 0x3000#16 [(0x3000#16, 0xB201#16), (0x3002#16, 0x3001#16)] 0x14A5#16 0#16 condZro
    let v := running 0x7280#16 0x14A5#16 0x3001#16 condZro
    (s.mem.wf = true ∧ s.ready ∧ decode s.fetchWord = .st .r1 0#9 ∧
      storeAddress (decode s.fetchWord) s.advancePc = some (s.pc + 1#16) ∧ (after (step s)).isSome) ∧
    (u.mem.wf = true ∧ u.ready ∧ decode u.fetchWord = .sti .r1 1#9 ∧
      storeAddress (decode u.fetchWord) u.advancePc = some (u.pc + 1#16) ∧ (after (step u)).isSome) ∧
    v.mem.wf = true ∧ v.ready ∧ decode v.fetchWord = .str .r1 .r2 0#6 ∧
      storeAddress (decode v.fetchWord) v.advancePc = some (v.pc + 1#16) ∧ (after (step v)).isSome :=
  ⟨⟨by decide, ⟨rfl, rfl⟩, by decide, by decide, by decide⟩, ⟨by decide, ⟨rfl, rfl⟩, by decide, by decide, by decide⟩,
    by decide, ⟨rfl, rfl⟩, by decide, by decide, by decide⟩

/-- OnlyStoresWriteMemory, StStoresTheRegister, StiStoresThroughThePointer, StrStoresAtTheBase: a store on a memory in
canonical form and a byte outside the stored word. -/
theorem test_witness_store :
    (running 0x3404#16 0#16 0xABCD#16 condNeg).mem.wf = true ∧
    storeAddress (.st .r2 4#9) (running 0x3404#16 0#16 0xABCD#16 condNeg) = some 0x3004#16 ∧
    0x600A ≠ lowKey 0x3004#16 ∧ 0x600A ≠ highKey 0x3004#16 ∧
    (after (exec (.st .r2 4#9) (running 0x3404#16 0#16 0xABCD#16 condNeg))).isSome := by decide

/-- UpdateFlagsReadsTheRegister: the three cases at their boundaries. -/
theorem test_witness_update_flags :
    State.reset.reg .r0 = 0#16 ∧ (State.reset.writeReg .r0 0x8000#16).reg .r0 ≠ 0#16 ∧
    ((State.reset.writeReg .r0 0x8000#16).reg .r0).getLsbD 15 = true ∧
    (State.reset.writeReg .r0 0x7FFF#16).reg .r0 ≠ 0#16 ∧
    ((State.reset.writeReg .r0 0x7FFF#16).reg .r0).getLsbD 15 = false := by decide

/-- A state in which GETC waits for the host. -/
def waiting : State := { (running 0xF020#16 0#16 0#16 condZro) with pc := 0x3001#16, routine := some .getc,
                                                                    input := ⟨[], .silent⟩ }

/-- FlagSettersFollowTheirDestination: a flag setter that is no TRAP, GETC with an answer, and an instruction that sets no
flag. -/
theorem test_witness_flag_register :
    flagRegister (.lea .r1 9#9) = some .r1 ∧ (∀ v, Instr.lea .r1 9#9 ≠ .trap v) ∧
    flagRegister (.trap 0x20#8) = some .r0 ∧ State.reset.input.answers ∧
    flagRegister (.jsr 0#11) = none :=
  ⟨rfl, nofun, by decide, .inr nofun, rfl⟩

/-- OnlyTheFlagSettersWriteCond: a step of a flag setter that ends, a step of another instruction, a GETC that begins to
wait, the end of a waiting GETC and IN, a GETC that goes on waiting, and a turn of PUTS. -/
theorem test_witness_flag_setters :
    flagRegister (decode (running 0xE209#16 0#16 0#16 condZro).fetchWord) = some .r1 ∧
    (after (step (running 0xE209#16 0#16 0#16 condZro))).map (·.routine) = some none ∧
    flagRegister (decode (running 0x3404#16 0#16 0#16 condZro).fetchWord) = none ∧
    flagRegister (decode ((running 0xF020#16 0#16 0#16 condZro).setInput ⟨[], .silent⟩).fetchWord) = some .r0 ∧
    (after (step ((running 0xF020#16 0#16 0#16 condZro).setInput ⟨[], .silent⟩))).map (·.routine) =
      some (some .getc) ∧
    (after (step (waiting.setInput ⟨[0x41#8], .silent⟩))).map (·.routine) = some none ∧
    (after (step waiting)).map (·.routine) = some (some .getc) ∧
    (after (step ((waiting.setRoutine (some .inp)).setInput ⟨[], .ended⟩))).map (·.routine) = some none ∧
    (after (step (waiting.setRoutine (some (.puts 0x3000#16))))).map (·.routine) =
      some (some (.puts 0x3001#16)) := by decide

/-- OnlyBranchesReadCond: an instruction that is no BR and answers a next state. -/
theorem test_witness_no_branch :
    isBranch (.jmp .r1) = false ∧ (after (exec (.jmp .r1) State.reset)).isSome := by decide

/-- AddIsBothSumsModulo, AndIsBitwise: both modes answer, a sum of 32768 in each, and bit 15. -/
theorem test_witness_operate :
    (after (exec (.addReg .r3 .r1 .r2) (running 0#16 0x7FFF#16 1#16 condZro))).isSome ∧
    (after (exec (.addImm .r3 .r1 0x1F#5) (running 0#16 0x7FFF#16 1#16 condZro))).isSome ∧
    (32768 : Int) ≤ (0x7FFF#16).toInt + (1#16).toInt ∧ (32768 : Int) ≤ (0x7FFF#16).toInt + (1#5).toInt ∧
    (after (exec (.addImm .r3 .r1 1#5) (running 0#16 0x7FFF#16 1#16 condZro))).isSome ∧
    (after (exec (.andReg .r3 .r1 .r2) (running 0#16 0x7FFF#16 1#16 condZro))).isSome ∧
    (after (exec (.andImm .r3 .r1 0x1F#5) (running 0#16 0x7FFF#16 1#16 condZro))).isSome ∧ 15 < 16 := by decide

/-- IdiomsComputeTheirResults: registers that differ as the idioms ask. -/
theorem test_witness_idioms : (Reg.r0 ≠ Reg.r1) ∧ (Reg.r3 ≠ Reg.r2) ∧ (Reg.r3 ≠ Reg.r0) := by decide

/-- BranchDecisionTable: each of the three values of COND. -/
theorem test_witness_branch :
    condLegal (running 0#16 0#16 0#16 condPos).cond ∧ condLegal (running 0#16 0#16 0#16 condZro).cond ∧
    condLegal (running 0#16 0#16 0#16 condNeg).cond :=
  ⟨.inl rfl, .inr (.inl rfl), .inr (.inr rfl)⟩

/-- OtherInstructionsLeaveThePostFetchPc, StepRunsTheDecodedInstruction: a ready state at the last address. -/
theorem test_witness_ready :
    (small 0xFFFF#16 [(0xFFFF#16, 0x1260#16)] 0#16 0#16 condZro).ready ∧
    writesPc (decode (small 0xFFFF#16 [(0xFFFF#16, 0x1260#16)] 0#16 0#16 condZro).fetchWord) = false ∧
    (after (step (small 0xFFFF#16 [(0xFFFF#16, 0x1260#16)] 0#16 0#16 condZro))).map (·.pc) = some 0#16 :=
  ⟨⟨rfl, rfl⟩, by decide, by decide⟩

/-- GetcReadsOneByte, InPromptsReadsAndEchoes: a console with a byte ready, one in an infinite INPUT and one at end of
input, and a GETC and an IN that answer a next state. -/
theorem test_witness_console :
    (State.reset.setInput ⟨[0xFF#8], .silent⟩).input.Gives 0xFF#8 ⟨[], .silent⟩ ∧
    (State.reset.setInput ⟨[], .stream 3 0⟩).input.Gives (Config.inputByte 3 0) ⟨[], .stream 3 1⟩ ∧
    State.reset.input = ⟨[], .ended⟩ ∧
    (after (exec (.trap 0x20#8) State.reset)).isSome ∧ (after (exec (.trap 0x23#8) State.reset)).isSome :=
  ⟨.inl rfl, .inr ⟨3, 0, rfl, rfl, rfl⟩, rfl, by decide, by decide⟩

/-- 92 D6: GETC of an infinite INPUT takes its bytes in order, after those at the front. -/
theorem test_getc_stream :
    (after (step ((running 0xF020#16 0#16 0#16 condZro).setInput ⟨[], .stream 3 7⟩))).map
      (fun t => (t.reg .r0, t.input)) = some (zext16 (Config.inputByte 3 7), ⟨[], .stream 3 8⟩) ∧
    (ConsoleInput.mk [0x41#8] (.stream 3 7)).answerAt 2 = some (some (Config.inputByte 3 8)) := ⟨rfl, rfl⟩

/-- PutsWritesTheString, PutspWritesThePackedString: a string of two words that wraps, and an empty one. -/
theorem test_witness_strings :
    let s := (small 0x3000#16 [(0xFFFF#16, 0x0041#16), (0x0000#16, 0x0042#16)] 0#16 0#16 condZro).writeReg
      .r0 0xFFFF#16
    (∀ j, j < 2 → s.load (s.reg .r0 + BitVec.ofNat 16 j) ≠ 0x0000#16) ∧
    s.load (s.reg .r0 + BitVec.ofNat 16 2) = 0x0000#16 ∧
    State.reset.load (State.reset.reg .r0 + BitVec.ofNat 16 0) = 0x0000#16 := by decide

/-- StringServicesAgreeWithTheirLoops: a ready state on which PUTS and PUTSP answer a state with no routine in
progress. -/
theorem test_witness_loops :
    State.reset.ready ∧ (after (exec (.trap 0x22#8) State.reset)).map (·.routine) = some none ∧
    (after (exec (.trap 0x24#8) State.reset)).map (·.routine) = some none :=
  ⟨⟨rfl, rfl⟩, by decide, by decide⟩

/-- WaitingReadsEndAsIfAnsweredAtOnce: a ready state without an answer, and three that answer. -/
theorem test_witness_waiting :
    (State.reset.setInput ⟨[], .silent⟩).ready ∧ (State.reset.setInput ⟨[], .silent⟩).input = ⟨[], .silent⟩ ∧
    ConsoleInput.answers ⟨[0x41#8], .silent⟩ ∧ ConsoleInput.answers ⟨[], .ended⟩ ∧
    ConsoleInput.answers ⟨[], .stream 0 0⟩ :=
  ⟨⟨rfl, rfl⟩, rfl, .inl (by decide), .inr (by decide), .inr nofun⟩

/-- UnansweredReadsWaitForEver: GETC and IN waiting with no answer. -/
theorem test_witness_unanswered :
    waiting.run = .running ∧ waiting.routine = some .getc ∧ ¬ waiting.input.answers ∧
    (waiting.setRoutine (some .inp)).routine = some .inp := by
  refine ⟨rfl, rfl, ?_, rfl⟩
  rintro (h | h)
  · exact h rfl
  · exact h rfl

/-- TrapChangesOnlyWhatItsRoutineMay, UnknownVectorsFault: vectors on each side of the six, and OUT. -/
theorem test_witness_vectors :
    (0x1F#8).toNat < 0x20 ∧ 0x25 < (0x26#8).toNat ∧ (0x21#8 : BitVec 8) ≠ 0x20#8 ∧ (0x21#8 : BitVec 8) ≠ 0x23#8 ∧
    0x20 ≤ (0x24#8).toNat ∧ (0x24#8).toNat < 0x25 := by decide

/-- FaultsComeOnlyFromIllFormedInstructions, FaultEntryIsPrecise, OnlyTrapHaltHalts: ready states whose step answers
each fault, and Halted. -/
theorem test_witness_faults :
    (running 0x8000#16 0#16 0#16 condZro).ready ∧
    (after (step (running 0x8000#16 0#16 0#16 condZro))).map (·.run) =
      some (.faulted (.illegalOpcode 0x3000#16 0x8#4)) ∧
    (running 0xF0FF#16 0#16 0#16 condZro).ready ∧
    (after (step (running 0xF0FF#16 0#16 0#16 condZro))).map (·.run) =
      some (.faulted (.unknownTrapVector 0x3000#16 0xFF#8)) ∧
    (after (step (running 0xF025#16 0#16 0#16 condZro))).map (·.run) = some .halted :=
  ⟨⟨rfl, rfl⟩, by decide, ⟨rfl, rfl⟩, by decide, by decide⟩

/-- EndedRunsAreFinal, OutcomesMapToExitCodes: a halted and a faulted state. -/
theorem test_witness_ended :
    (State.reset.setRun .halted).run ≠ .running ∧
    (State.reset.setRun (.faulted (.illegalOpcode 0#16 0xD#4))).run ≠ .running ∧
    (State.reset.setRun (.faulted (.illegalOpcode 0#16 0xD#4))).diagnostic =
      some (.illegalOpcode 0#16 0xD#4) := by decide

/-- EveryStepKeepsTheInvariant: a state with the invariant whose step answers a next state. -/
theorem test_witness_invariant :
    (running 0x1642#16 0x7FFF#16 1#16 condNeg).Inv ∧
    (after (step (running 0x1642#16 0x7FFF#16 1#16 condNeg))).isSome :=
  ⟨{ memory_canonical := by decide
     cond_one_flag := .inr (.inr rfl)
     routine_running := fun _ h => by cases h
     routine_of_trap := fun _ h => by cases h
     string_endless := fun _ h => by rcases h with h | h <;> cases h
     halted_at_halt := fun h => by cases h
     illegal_record := fun _ _ h => by cases h
     vector_record := fun _ _ h => by cases h }, by decide⟩

end Sys2Proof.Tests
end

