-- ==== Sys2Proof/Proofs/OperandsAndFlags.lean ====
section
/-! PROOFS. Sign extension (R12) and the condition flags (R16, R137), and the two statements about them. -/

namespace Sys2Proof.Machine

open Sys2Proof

/-! ### Sign extension -/

/-- R12, bit by bit: the field's own bits, and its sign bit in every bit above them. -/
theorem getLsbD_sext {n : Nat} (hn : n ≤ 16) (v : BitVec n) {i : Nat} (hi : i < 16) :
    (sext v).getLsbD i = if i < n then v.getLsbD i else v.getLsbD (n - 1) := by
  unfold sext
  split
  · next sign =>
    have ones : (0xFFFF#16).getLsbD (i - n) = true := by
      change (BitVec.allOnes 16).getLsbD (i - n) = true
      simp only [BitVec.getLsbD_allOnes, decide_eq_true_eq]
      omega
    rw [BitVec.getLsbD_or, BitVec.getLsbD_shiftLeft, BitVec.getLsbD_setWidth, ones, sign]
    by_cases field : i < n <;> simp [hi, field]
  · next sign =>
    rw [BitVec.getLsbD_setWidth, Bool.eq_false_of_not_eq_true sign]
    by_cases field : i < n
    · simp [hi, field]
    · simp [field, v.getLsbD_of_ge i (Nat.le_of_not_lt field)]

/-- The spec's sext_N is the library's sign extension to 16 bits. -/
theorem sext_eq_signExtend {n : Nat} (hn : n ≤ 16) (v : BitVec n) : sext v = v.signExtend 16 := by
  apply BitVec.eq_of_getLsbD_eq
  intro i hi
  rw [getLsbD_sext hn v hi, BitVec.getLsbD_signExtend, BitVec.msb_eq_getLsbD_last]
  simp [hi]

/-- R12: sign extension keeps the two's-complement value. -/
theorem toInt_sext {n : Nat} (hn : n ≤ 16) (v : BitVec n) : (sext v).toInt = v.toInt := by
  rw [sext_eq_signExtend hn, BitVec.toInt_signExtend_of_le hn]

/-- R12: the low bits of an extended field are the field. -/
theorem setWidth_sext {n : Nat} (hn : n ≤ 16) (v : BitVec n) : (sext v).setWidth n = v := by
  apply BitVec.eq_of_getLsbD_eq
  intro i hi
  rw [BitVec.getLsbD_setWidth, getLsbD_sext hn v (by omega)]
  simp [hi]

/-! ### Condition flags -/

@[simp] theorem setcc_zero : setcc 0#16 = condZro := rfl

/-- R16: a word with its sign bit set is NEG (such a word is not 0). -/
theorem setcc_of_negative {v : Word} (sign : v.getLsbD 15 = true) : setcc v = condNeg := by
  have nonzero : v ≠ 0#16 := by
    rintro rfl
    cases sign
  simp only [setcc, if_neg nonzero, if_pos sign]

/-- R16: a word that is not 0 and has its sign bit clear is POS. -/
theorem setcc_of_positive {v : Word} (nonzero : v ≠ 0#16) (sign : v.getLsbD 15 = false) : setcc v = condPos := by
  simp only [setcc, if_neg nonzero, sign, Bool.false_eq_true, if_false]

/-- R137, the frame of a flag update: putting COND back gives the state before it. -/
theorem State.updateFlags_setCond_cond (s : State) (r : Reg) : (s.updateFlags r).setCond s.cond = s := rfl

/-! ### The statements -/

/-- Settles O12: the formula is the model's own definition; the value and the way back hold at every width up to 16. -/
theorem signExtensionKeepsTheValue : Obligations.SignExtensionKeepsTheValue := by
  intro n hmem v
  have hn : n ≤ 16 := by
    simp only [List.mem_cons, List.not_mem_nil, or_false] at hmem
    omega
  exact ⟨rfl, toInt_sext hn v, congrArg sext (setWidth_sext hn v)⟩

/-- Settles O14, by the three cases of `setcc` and the frame of a flag update. -/
theorem updateFlagsReadsTheRegister : Obligations.UpdateFlagsReadsTheRegister := by
  intro s r
  refine ⟨fun zero => ?_, fun _ sign => ?_, fun nonzero sign => ?_, s.updateFlags_setCond_cond r⟩
  · rw [State.updateFlags_eq, zero, setcc_zero]
    rfl
  · rw [State.updateFlags_eq, setcc_of_negative sign]
    rfl
  · rw [State.updateFlags_eq, setcc_of_positive nonzero sign]
    rfl

end Sys2Proof.Machine
end

