-- ==== Sys2Proof/Proofs/StateAndInvariant.lean ====
section
/-! PROOFS. What an instruction and a service routine can do, said once as `Effect` and `ServiceEffect`, and from
that the statements of 10_state.md: reset and launch, the register file, the outcome port, COND, PC, ended runs and the
invariant. -/

namespace Sys2Proof.Machine

open Sys2Proof

/-! ### The effect of a service routine -/

/-- R213, R218: the services that read the console, and with it write R0 and COND. -/
def Service.reads : Service → Bool
  | .getc | .inp => true
  | .out | .puts | .putsp | .halt => false

/-- What the service `sv` can do to `u` in one step, when it begins just after TRAP's link write and when it goes on
(R212 to R220). HALT is not among them: it ends the run. -/
inductive ServiceEffect (sv : Service) (u : State) : State → Prop where
  /-- R213, R218: the host's answer goes to R0, which sets the flags, and the routine ends. -/
  | answered (w : Word) (echo : List Byte) (rest : ConsoleInput) (reads : sv.reads = true) :
      ServiceEffect sv u
        (((((u.setInput rest).writeReg .r0 w).consoleWrite echo).setCond (setcc w)).setRoutine none)
  /-- R212, R217: the routine stays in progress, GETC and IN for want of an answer, PUTS and PUTSP in a string without
  end. -/
  | waits (r : Routine) (bs : List Byte) (own : r.service = sv)
      (unanswered : sv.reads = true → ¬ u.input.answers)
      (endless : sv.reads = false → (∀ a, u.load a ≠ 0#16) ∨ ∃ q, u.routine = some q ∧ q.service = sv) :
      ServiceEffect sv u ((u.consoleWrite bs).setRoutine (some r))
  /-- R215, R216, R220: the routine writes its bytes within the TRAP. -/
  | writes (bs : List Byte) (noRead : sv.reads = false) : ServiceEffect sv u (u.consoleWrite bs)
  /-- R216, R220: a string walk that takes steps of its own meets a zero word. -/
  | ends (noRead : sv.reads = false) : ServiceEffect sv u (u.setRoutine none)

@[simp] theorem State.consoleWrite_nil (s : State) : s.consoleWrite [] = s := by
  simp [State.consoleWrite]

/-- R212: the host has not answered yet. -/
theorem ConsoleInput.not_answers_silent : ¬ ConsoleInput.answers ⟨[], .silent⟩ := by
  simp [ConsoleInput.answers]

/-- R217: a string walk over the whole memory that does not end has met every word. -/
theorem State.load_ne_zero_of_stringAt {u : State} {a : Word} (h : u.mem.stringAt Config.memoryWords a = none)
    (b : Word) : u.load b ≠ 0#16 := by
  have met := Memory.stringAt_eq_none h (b - a).toNat (b - a).isLt
  have reached : a + BitVec.ofNat 16 (b - a).toNat = b := by
    rw [BitVec.ofNat_toNat, BitVec.setWidth_eq, BitVec.add_comm, BitVec.sub_add_cancel]
  rwa [reached] at met

/-- R212, R217: a routine stays in progress without writing a byte. -/
theorem ServiceEffect.waitsQuietly {sv : Service} {u : State} (r : Routine) (own : r.service = sv)
    (unanswered : sv.reads = true → ¬ u.input.answers)
    (endless : sv.reads = false → (∀ a, u.load a ≠ 0#16) ∨ ∃ q, u.routine = some q ∧ q.service = sv) :
    ServiceEffect sv u (u.setRoutine (some r)) := by
  simpa only [State.consoleWrite_nil] using waits r [] own unanswered endless

/-- R213: GETC from its console read on. -/
theorem ServiceEffect.of_getc (u : State) : ServiceEffect .getc u u.serviceGetc := by
  rcases u.serviceGetc_cases with ⟨b, rest, -, e⟩ | ⟨-, e⟩ | ⟨silent, e⟩ <;> rw [e]
  · simpa only [State.consoleWrite_nil] using answered (u := u) (zext16 b) [] rest rfl
  · have effect : ServiceEffect .getc u _ := answered 0x0000#16 [] u.input rfl
    rwa [State.consoleWrite_nil] at effect
  · exact waitsQuietly .getc rfl (fun _ => silent ▸ ConsoleInput.not_answers_silent) nofun

/-- R212, R218, R219: IN from its console read on, after the bytes it has written in the same step. -/
theorem ServiceEffect.of_inRead_after (u : State) (bs : List Byte) :
    ServiceEffect .inp u (u.consoleWrite bs).serviceInRead := by
  rcases (u.consoleWrite bs).serviceInRead_cases with ⟨b, rest, -, e⟩ | ⟨-, e⟩ | ⟨silent, e⟩ <;> rw [e]
  · have effect := answered (sv := .inp) (u := u) (zext16 b) (bs ++ [b]) rest rfl
    rwa [← State.consoleWrite_consoleWrite] at effect
  · have effect := answered (sv := .inp) (u := u) 0x0000#16 (bs ++ [0x00#8]) u.input rfl
    rwa [← State.consoleWrite_consoleWrite] at effect
  · rw [State.consoleWrite_input] at silent
    exact waits .inp bs rfl (fun _ => silent ▸ ConsoleInput.not_answers_silent) nofun

/-- R218: IN from its console read on, the prompt written by an earlier step. -/
theorem ServiceEffect.of_inRead (u : State) : ServiceEffect .inp u u.serviceInRead := by
  simpa only [State.consoleWrite_nil] using of_inRead_after u []

/-- R218: IN from its prompt on. -/
theorem ServiceEffect.of_in (u : State) : ServiceEffect .inp u u.serviceIn :=
  of_inRead_after u Config.inPrompt

/-- R216, R217: PUTS from its start. -/
theorem ServiceEffect.of_puts (u : State) : ServiceEffect .puts u u.servicePuts := by
  rcases u.servicePuts_cases with ⟨ws, -, e⟩ | ⟨endless, e⟩ <;> rw [e]
  · exact writes _ rfl
  · exact waitsQuietly (.puts _) rfl nofun (fun _ => .inl (State.load_ne_zero_of_stringAt endless))

/-- R217, R220: PUTSP from its start. -/
theorem ServiceEffect.of_putsp (u : State) : ServiceEffect .putsp u u.servicePutsp := by
  rcases u.servicePutsp_cases with ⟨ws, -, e⟩ | ⟨endless, e⟩ <;> rw [e]
  · exact writes _ rfl
  · exact waitsQuietly (.putsp _) rfl nofun (fun _ => .inl (State.load_ne_zero_of_stringAt endless))

/-- R212, R217: going on with the routine in progress. -/
theorem ServiceEffect.of_resume {u : State} {r : Routine} (inProgress : u.routine = some r) :
    ServiceEffect r.service u (u.resume r) := by
  cases r with
  | getc => exact of_getc u
  | inp => exact of_inRead u
  | puts addr =>
    simp only [State.resume, State.putsTurn]
    split
    · exact ends rfl
    · exact waits (.puts _) _ rfl nofun (fun _ => .inr ⟨_, inProgress, rfl⟩)
  | putsp addr =>
    simp only [State.resume, State.putspTurn]
    split
    · exact ends rfl
    · exact waits (.putsp _) _ rfl nofun (fun _ => .inr ⟨_, inProgress, rfl⟩)

/-! ### The effect of an instruction -/

/-- What the instruction `i` can do to `s`, the state after the fetch increment. -/
inductive Effect (s : State) : Instr → State → Prop where
  /-- R137: ADD, AND, NOT, the loads and LEA write a register and the flags of its value. -/
  | writesReg {i : Instr} (dr : Reg) (v : Word) (sets : flagRegister i = some dr)
      (notTrap : ∀ vector, i ≠ .trap vector) : Effect s i (s.writeRegFlags dr v)
  /-- R190 to R192: ST, STI and STR write a word of memory. -/
  | stores {i : Instr} (ea v : Word) (sets : flagRegister i = none) : Effect s i (s.store ea v)
  /-- R150, R152: BR and JMP write at most PC. -/
  | jumps {i : Instr} (target : Word) (sets : flagRegister i = none) (jump : writesPc i = true) :
      Effect s i (s.setPc target)
  /-- R154, R155: JSR and JSRR write the link and PC. -/
  | calls {i : Instr} (target : Word) (sets : flagRegister i = none) (jump : writesPc i = true) :
      Effect s i (s.link.setPc target)
  /-- R250. -/
  | rti : Effect s .rti (s.raise (.illegalOpcode s.instrAddr 0x8#4))
  /-- R251. -/
  | res : Effect s .res (s.raise (.illegalOpcode s.instrAddr 0xD#4))
  /-- R210: TRAP writes the link and runs its service. -/
  | serves {vector : BitVec 8} {sv : Service} {t : State} (selects : serviceOf vector = some sv)
      (effect : ServiceEffect sv s.link t) : Effect s (.trap vector) t
  /-- R222: TRAP HALT writes the link and its notice and ends the run. -/
  | halts {vector : BitVec 8} (selects : serviceOf vector = some .halt) :
      Effect s (.trap vector) ((s.link.consoleWrite Config.haltNotice).halt)
  /-- R223: a TRAP without a service writes the link and takes the fatal error. -/
  | unknown {vector : BitVec 8} (selects : serviceOf vector = none) :
      Effect s (.trap vector) (s.link.raise (.unknownTrapVector s.instrAddr vector))

/-- R150: BR writes PC, with the value it holds where the branch is not taken. -/
theorem execBr_eq (cond : BitVec 3) (o : BitVec 9) (s : State) :
    execBr cond o s = .next (s.setPc (if branchTaken cond s.cond then pcRelative o s else s.pc)) := by
  unfold execBr
  split <;> rfl

/-- R210: TRAP answers a next state, with the effect of the service its vector selects. -/
theorem execTrap_effect (vector : BitVec 8) (s : State) :
    ∃ t, execTrap vector s = .next t ∧ Effect s (.trap vector) t := by
  unfold execTrap
  cases selects : serviceOf vector with
  | none => exact ⟨_, rfl, .unknown selects⟩
  | some sv =>
    cases sv with
    | getc => exact ⟨_, rfl, .serves selects (.of_getc _)⟩
    | out => exact ⟨_, rfl, .serves selects (.writes _ rfl)⟩
    | puts => exact ⟨_, rfl, .serves selects (.of_puts _)⟩
    | inp => exact ⟨_, rfl, .serves selects (.of_in _)⟩
    | putsp => exact ⟨_, rfl, .serves selects (.of_putsp _)⟩
    | halt => exact ⟨_, rfl, .halts selects⟩

/-- R303: every instruction answers a next state, with its effect. -/
theorem exec_effect (i : Instr) (s : State) : ∃ t, exec i s = .next t ∧ Effect s i t := by
  cases i with
  | br cond o => exact ⟨_, execBr_eq cond o s, .jumps _ rfl rfl⟩
  | jmp b => exact ⟨_, rfl, .jumps _ rfl rfl⟩
  | jsr o => exact ⟨_, rfl, .calls _ rfl rfl⟩
  | jsrr b => exact ⟨_, rfl, .calls _ rfl rfl⟩
  | addReg dr a b => exact ⟨_, rfl, .writesReg dr _ rfl nofun⟩
  | addImm dr a imm => exact ⟨_, rfl, .writesReg dr _ rfl nofun⟩
  | andReg dr a b => exact ⟨_, rfl, .writesReg dr _ rfl nofun⟩
  | andImm dr a imm => exact ⟨_, rfl, .writesReg dr _ rfl nofun⟩
  | not dr a => exact ⟨_, rfl, .writesReg dr _ rfl nofun⟩
  | ld dr o => exact ⟨_, rfl, .writesReg dr _ rfl nofun⟩
  | ldi dr o => exact ⟨_, rfl, .writesReg dr _ rfl nofun⟩
  | ldr dr b o => exact ⟨_, rfl, .writesReg dr _ rfl nofun⟩
  | lea dr o => exact ⟨_, rfl, .writesReg dr _ rfl nofun⟩
  | st r o => exact ⟨_, rfl, .stores _ _ rfl⟩
  | sti r o => exact ⟨_, rfl, .stores _ _ rfl⟩
  | str r b o => exact ⟨_, rfl, .stores _ _ rfl⟩
  | rti => exact ⟨_, rfl, .rti⟩
  | res => exact ⟨_, rfl, .res⟩
  | trap vector => exact execTrap_effect vector s

/-- The effect of an instruction, from its answer. -/
theorem Effect.of_exec {i : Instr} {s t : State} (h : exec i s = .next t) : Effect s i t := by
  obtain ⟨t', answer, effect⟩ := exec_effect i s
  rw [h] at answer
  cases answer
  exact effect

/-- R302: the step of a ready machine has the effect of the fetched instruction. -/
theorem Effect.of_step {s t : State} (ready : s.ready) (h : step s = .next t) :
    Effect s.advancePc (decode s.fetchWord) t := by
  obtain ⟨running, idle⟩ := ready
  rcases step_cases s with ⟨-, -, e⟩ | ⟨r, -, inProgress, -⟩ | ⟨ended, -⟩
  · exact .of_exec (e ▸ h)
  · simp [idle] at inProgress
  · exact absurd running ended

/-- R212, R217: the step of a machine with a routine in progress has the effect of its service. -/
theorem ServiceEffect.of_step {s t : State} {r : Routine} (running : s.run = .running)
    (inProgress : s.routine = some r) (h : step s = .next t) : ServiceEffect r.service s t := by
  rcases step_cases s with ⟨-, idle, -⟩ | ⟨q, -, same, e⟩ | ⟨ended, -⟩
  · simp [inProgress] at idle
  · rw [inProgress] at same
    cases same
    rw [e] at h
    cases h
    exact .of_resume inProgress
  · exact absurd running ended

/-! ### What an effect leaves of PC and COND -/

/-- R224: no service writes PC. -/
theorem ServiceEffect.pc {sv : Service} {u t : State} (h : ServiceEffect sv u t) : t.pc = u.pc := by
  cases h <;> rfl

/-- R34, R35: only BR, JMP, JSR and JSRR write PC after the fetch increment. -/
theorem Effect.pc {i : Instr} {s t : State} (h : Effect s i t) (noJump : writesPc i = false) : t.pc = s.pc := by
  cases h with
  | jumps target sets jump => rw [noJump] at jump; cases jump
  | calls target sets jump => rw [noJump] at jump; cases jump
  | serves selects effect => exact effect.pc
  | writesReg | stores | rti | res | halts | unknown => rfl

/-- R37: OUT, PUTS and PUTSP leave COND. -/
theorem ServiceEffect.cond_of_not_reads {sv : Service} {u t : State} (h : ServiceEffect sv u t)
    (noRead : sv.reads = false) : t.cond = u.cond := by
  cases h with
  | answered w echo rest reads => rw [noRead] at reads; cases reads
  | waits | writes | ends => rfl

/-- R138, R212: GETC and IN end with the flags of R0, or wait for an answer with COND as it was. -/
theorem ServiceEffect.cond_of_reads {sv : Service} {u t : State} (h : ServiceEffect sv u t)
    (reads : sv.reads = true) :
    (t.routine = none ∧ t.cond = setcc (t.reg .r0)) ∨
    (t.routine ≠ none ∧ t.cond = u.cond ∧ ¬ u.input.answers) := by
  cases h with
  | answered w echo rest => exact .inl ⟨rfl, by simp⟩
  | waits r bs own unanswered => exact .inr ⟨by simp, rfl, unanswered reads⟩
  | writes bs noRead => rw [reads] at noRead; cases noRead
  | ends noRead => rw [reads] at noRead; cases noRead

/-- R138: TRAP sets flags, those of R0, where its service reads the console. -/
theorem flagRegister_trap {vector : BitVec 8} {sv : Service} (selects : serviceOf vector = some sv) :
    flagRegister (.trap vector) = if sv.reads then some .r0 else none := by
  rcases serviceOf_cases vector with ⟨rfl, e⟩ | ⟨rfl, e⟩ | ⟨rfl, e⟩ | ⟨rfl, e⟩ | ⟨rfl, e⟩ | ⟨rfl, e⟩ | ⟨-, e⟩ <;>
    rw [e] at selects <;> cases selects <;> rfl

/-- R138: a vector that selects no service sets no flags. -/
theorem flagRegister_trap_unknown {vector : BitVec 8} (selects : serviceOf vector = none) :
    flagRegister (.trap vector) = none := by
  simp only [flagRegister, ite_eq_right_iff]
  rintro (rfl | rfl) <;> cases selects

/-- R37: an instruction that sets no flags leaves COND. -/
theorem Effect.cond_of_no_flagRegister {i : Instr} {s t : State} (h : Effect s i t) (noFlags : flagRegister i = none) :
    t.cond = s.cond := by
  cases h with
  | writesReg dr v sets => rw [noFlags] at sets; cases sets
  | serves selects effect =>
    rw [flagRegister_trap selects] at noFlags
    exact effect.cond_of_not_reads (by simpa using noFlags)
  | stores | jumps | calls | rti | res | halts | unknown => rfl

/-- R37, R212: a flag-setting instruction ends with the flags of its destination; GETC and IN wait, with COND as it was,
where the host has not answered. -/
theorem Effect.cond_of_flagRegister {i : Instr} {s t : State} {r : Reg} (h : Effect s i t)
    (sets : flagRegister i = some r) :
    ((t.routine = s.routine ∨ t.routine = none) ∧ t.cond = setcc (t.reg r)) ∨
    (t.routine ≠ none ∧ t.cond = s.cond ∧ (∃ v, i = .trap v) ∧ ¬ s.input.answers) := by
  cases h with
  | writesReg dr v dest =>
    rw [dest] at sets
    cases sets
    exact .inl ⟨.inl rfl, rfl⟩
  | stores ea v noFlags => rw [noFlags] at sets; cases sets
  | jumps target noFlags => rw [noFlags] at sets; cases sets
  | calls target noFlags => rw [noFlags] at sets; cases sets
  | rti => cases sets
  | res => cases sets
  | serves selects effect =>
    rw [flagRegister_trap selects] at sets
    obtain ⟨reads, dest⟩ := Option.ite_none_right_eq_some.mp sets
    cases dest
    rcases effect.cond_of_reads reads with ⟨idle, flags⟩ | ⟨waiting, same, unanswered⟩
    · exact .inl ⟨.inr idle, flags⟩
    · exact .inr ⟨waiting, same, ⟨_, rfl⟩, unanswered⟩
  | halts selects => rw [flagRegister_trap selects] at sets; cases sets
  | unknown selects => rw [flagRegister_trap_unknown selects] at sets; cases sets

/-- Settles O15, from what an effect does to COND. -/
theorem flagSettersFollowTheirDestination : Obligations.FlagSettersFollowTheirDestination := by
  intro i s
  obtain ⟨t, answer, effect⟩ := exec_effect i s
  refine ⟨t, answer, effect.cond_of_no_flagRegister, fun r sets ends => ?_⟩
  rcases effect.cond_of_flagRegister sets with ⟨-, flags⟩ | ⟨-, -, ⟨v, trap⟩, unanswered⟩
  · exact flags
  · rcases ends with notTrap | answers
    · exact absurd trap (notTrap v)
    · exact absurd answers unanswered

/-- Settles O16: a ready machine's step has the effect of its instruction, any other step of a running machine that of
the service in progress. -/
theorem onlyTheFlagSettersWriteCond : Obligations.OnlyTheFlagSettersWriteCond := by
  intro s t running answer
  refine ⟨fun idle r sets => ?_, fun idle noFlags => ?_, fun q inProgress reading => ?_, fun a inProgress => ?_⟩
  · have effect := Effect.of_step ⟨running, idle⟩ answer
    rcases effect.cond_of_flagRegister sets with ⟨ended, flags⟩ | ⟨waiting, same, -, -⟩
    · have ended : t.routine = none := ended.elim (fun same => same.trans idle) id
      exact ⟨fun _ => flags, absurd ended⟩
    · exact ⟨fun ended => absurd ended waiting, fun _ => same⟩
  · exact (Effect.of_step ⟨running, idle⟩ answer).cond_of_no_flagRegister noFlags
  · have reads : q.service.reads = true := by rcases reading with rfl | rfl <;> rfl
    rcases (ServiceEffect.of_step running inProgress answer).cond_of_reads reads with
      ⟨ended, flags⟩ | ⟨waiting, same, -⟩
    · exact ⟨fun _ => flags, absurd ended⟩
    · exact ⟨fun ended => absurd ended waiting, fun _ => same⟩
  · rcases inProgress with puts | putsp
    · exact (ServiceEffect.of_step running puts answer).cond_of_not_reads rfl
    · exact (ServiceEffect.of_step running putsp answer).cond_of_not_reads rfl

/-- Settles O31: the fetch increment is the only write of PC. -/
theorem otherInstructionsLeaveThePostFetchPc : Obligations.OtherInstructionsLeaveThePostFetchPc := by
  intro s t ready answer noJump
  have pc : t.pc = s.pc + 1#16 := (Effect.of_step ready answer).pc noJump
  rw [pc, BitVec.toNat_add]
  rfl

/-! ### The invariant -/

/-- R16: the flags of a word are exactly one of POS, ZRO and NEG. -/
theorem condLegal_setcc (v : Word) : condLegal (setcc v) := by
  unfold setcc condLegal
  split
  · exact .inr (.inl rfl)
  · split
    · exact .inr (.inr rfl)
    · exact .inl rfl

/-- Between instructions of a running machine, the invariant says only that memory is canonical and that COND holds one
flag. -/
theorem State.ready.inv {s : State} (ready : s.ready) (mem : s.mem.wf = true) (cond : condLegal s.cond) : s.Inv := by
  obtain ⟨running, idle⟩ := ready
  constructor <;> simp [mem, cond, running, idle]

/-- Writing to the console keeps the invariant, which does not speak of the output. -/
theorem State.Inv.consoleWrite {u : State} (inv : u.Inv) (bs : List Byte) : (u.consoleWrite bs).Inv where
  memory_canonical := inv.memory_canonical
  cond_one_flag := inv.cond_one_flag
  routine_running := inv.routine_running
  routine_of_trap := inv.routine_of_trap
  string_endless := inv.string_endless
  halted_at_halt := inv.halted_at_halt
  illegal_record := inv.illegal_record
  vector_record := inv.vector_record

/-- R217: the routines whose service reads no console are the strings in progress. -/
theorem Routine.service_reads_eq_false {r : Routine} :
    r.service.reads = false ↔ ∃ a, r = .puts a ∨ r = .putsp a := by
  cases r <;> simp [Routine.service, Service.reads]

/-- R210, R212, R217: a service of the TRAP before PC keeps the invariant, when it begins and when it goes on. -/
theorem ServiceEffect.keeps_inv {sv : Service} {u t : State} (h : ServiceEffect sv u t) (inv : u.Inv)
    (running : u.run = .running) (link : u.reg .r7 = u.pc) (trap : TrapAt u u.instrAddr sv) : t.Inv := by
  cases h with
  | answered w echo rest reads => exact State.ready.inv ⟨running, rfl⟩ inv.memory_canonical (condLegal_setcc w)
  | writes bs noRead => exact inv.consoleWrite bs
  | ends noRead => exact State.ready.inv ⟨running, rfl⟩ inv.memory_canonical inv.cond_one_flag
  | waits r bs own unanswered endless =>
    exact
      { memory_canonical := inv.memory_canonical
        cond_one_flag := inv.cond_one_flag
        routine_running := fun _ _ => running
        routine_of_trap := by rintro q ⟨⟩; exact ⟨link, own ▸ trap⟩
        string_endless := by
          intro a string
          have noRead : sv.reads = false :=
            own ▸ Routine.service_reads_eq_false.mpr ⟨a, by simpa using string⟩
          rcases endless noRead with all | ⟨q, inProgress, same⟩
          · exact all
          · obtain ⟨b, before⟩ := Routine.service_reads_eq_false.mp (same ▸ noRead)
            exact inv.string_endless b (by simpa [inProgress] using before)
        halted_at_halt := by simp [running]
        illegal_record := by simp [running]
        vector_record := by simp [running] }

/-- R101: the opcode is the four bits 15 to 12. -/
theorem fieldOpcode_congr {v w : Word} (b15 : v.getLsbD 15 = w.getLsbD 15) (b14 : v.getLsbD 14 = w.getLsbD 14)
    (b13 : v.getLsbD 13 = w.getLsbD 13) (b12 : v.getLsbD 12 = w.getLsbD 12) : fieldOpcode v = fieldOpcode w := by
  apply BitVec.eq_of_getLsbD_eq
  intro i hi
  simp only [fieldOpcode, BitVec.getLsbD_extractLsb', hi, decide_true, Bool.true_and]
  interval_cases i <;> assumption

/-- R101: a word has the opcode of its row of the opcode table, since each branch of `decode` fixes the four bits. -/
theorem fieldOpcode_rowMatch_decode (w : Word) : fieldOpcode (decode w).rowMatch = fieldOpcode w := by
  unfold decode
  split <;> (try split) <;> (apply fieldOpcode_congr <;> simp only [Instr.rowMatch, *] <;> rfl)

/-- R250, R251: the opcode of the words that decode to RTI and RES. -/
theorem opcode_of_decode_eq {w : Word} {i : Instr} (h : decode w = i) :
    w.extractLsb' 12 4 = fieldOpcode i.rowMatch := by
  rw [← h, fieldOpcode_rowMatch_decode, fieldOpcode]

/-- A run that ends within its instruction has the invariant if its record is true. -/
theorem State.Inv.setRun {u : State} (inv : u.Inv) (idle : u.routine = none) (run : Run)
    (halted : run = .halted → u.reg .r7 = u.pc ∧ TrapAt u u.instrAddr .halt)
    (illegal : ∀ a op, run = .faulted (.illegalOpcode a op) →
      a = u.instrAddr ∧ op = (u.load a).extractLsb' 12 4 ∧ (op = 0x8#4 ∨ op = 0xD#4))
    (unknown : ∀ a v, run = .faulted (.unknownTrapVector a v) →
      a = u.instrAddr ∧ decode (u.load a) = .trap v ∧ serviceOf v = none ∧ u.reg .r7 = u.pc) :
    (u.setRun run).Inv where
  memory_canonical := inv.memory_canonical
  cond_one_flag := inv.cond_one_flag
  routine_running := by simp [idle]
  routine_of_trap := by simp [idle]
  string_endless := by simp [idle]
  halted_at_halt := halted
  illegal_record := illegal
  vector_record := unknown

/-- R250, R251, R262: entering Faulted at an instruction with the opcode of RTI or RES keeps the invariant. -/
theorem State.Inv.raise_illegalOpcode {u : State} (inv : u.Inv) (idle : u.routine = none) {op : BitVec 4}
    (opcode : (u.load u.instrAddr).extractLsb' 12 4 = op) (reserved : op = 0x8#4 ∨ op = 0xD#4) :
    (u.raise (.illegalOpcode u.instrAddr op)).Inv :=
  inv.setRun idle _ nofun (by rintro a _ ⟨⟩; exact ⟨rfl, opcode.symm, reserved⟩) nofun

/-- The effect of the instruction before PC, on a machine ready to fetch, keeps the invariant. -/
theorem Effect.keeps_inv {i : Instr} {s t : State} (h : Effect s i t) (inv : s.Inv) (ready : s.ready)
    (fetched : decode (s.load s.instrAddr) = i) : t.Inv := by
  obtain ⟨running, idle⟩ := ready
  have linked : s.link.Inv := State.ready.inv ⟨running, idle⟩ inv.memory_canonical inv.cond_one_flag
  cases h with
  | writesReg dr v => exact State.ready.inv ⟨running, idle⟩ inv.memory_canonical (condLegal_setcc _)
  | stores ea v =>
    exact State.ready.inv ⟨running, idle⟩ (Memory.wf_write inv.memory_canonical ea v) inv.cond_one_flag
  | jumps target => exact State.ready.inv ⟨running, idle⟩ inv.memory_canonical inv.cond_one_flag
  | calls target => exact State.ready.inv ⟨running, idle⟩ inv.memory_canonical inv.cond_one_flag
  | rti => exact inv.raise_illegalOpcode idle (opcode_of_decode_eq fetched) (.inl rfl)
  | res => exact inv.raise_illegalOpcode idle (opcode_of_decode_eq fetched) (.inr rfl)
  | serves selects effect => exact effect.keeps_inv linked running (by simp) ⟨_, fetched, selects⟩
  | halts selects =>
    exact (linked.consoleWrite _).setRun idle _ (fun _ => ⟨by simp, _, fetched, selects⟩) nofun nofun
  | unknown selects =>
    exact linked.setRun idle _ nofun nofun (by rintro a v ⟨⟩; exact ⟨rfl, fetched, selects, by simp⟩)

/-- Settles O60: a step runs the instruction before the new PC, or goes on with the service of the TRAP before PC, or
changes nothing. -/
theorem everyStepKeepsTheInvariant : Obligations.EveryStepKeepsTheInvariant := by
  intro s t inv answer
  rcases step_cases s with ⟨running, idle, e⟩ | ⟨r, running, inProgress, -⟩ | ⟨-, e⟩
  · have before : s.advancePc.instrAddr = s.pc := by simp
    have advanced : s.advancePc.Inv := State.ready.inv ⟨running, idle⟩ inv.memory_canonical inv.cond_one_flag
    exact (Effect.of_exec (e ▸ answer)).keeps_inv advanced ⟨running, idle⟩ (by rw [before]; rfl)
  · obtain ⟨link, trap⟩ := inv.routine_of_trap r inProgress
    exact (ServiceEffect.of_step running inProgress answer).keeps_inv inv running link trap
  · rw [e] at answer
    cases answer
    exact inv

/-- Settles O59: reset is ready to fetch, its memory is canonical and COND is ZRO. -/
theorem resetHasTheInvariant : Obligations.ResetHasTheInvariant :=
  State.ready.inv ⟨rfl, rfl⟩ rfl (.inr (.inl rfl))

/-! ### Reset, launch and the register file -/

/-- R46: loading an image keeps the memory canonical. -/
theorem Memory.wf_loadImage {m : Memory} (hm : m.wf = true) (image : List (Word × Word)) :
    (m.loadImage image).wf = true := by
  induction image generalizing m with
  | nil => exact hm
  | cons cell rest ih => exact ih (Memory.wf_write hm cell.1 cell.2)

/-- R46: an address outside the image keeps its word. -/
theorem Memory.read_loadImage_of_not_mem {m : Memory} (hm : m.wf = true) {image : List (Word × Word)} {a : Word}
    (outside : a ∉ image.map Prod.fst) : (m.loadImage image).read a = m.read a := by
  induction image generalizing m with
  | nil => rfl
  | cons cell rest ih =>
    have ne : a ≠ cell.1 := List.ne_of_not_mem_cons outside
    have outsideRest : a ∉ rest.map Prod.fst := List.not_mem_of_not_mem_cons outside
    calc ((m.write cell.1 cell.2).loadImage rest).read a
        = (m.write cell.1 cell.2).read a := ih (Memory.wf_write hm _ _) outsideRest
      _ = m.read a := by rw [Memory.read_write hm, if_neg ne]

/-- R46: an address of an image that names it once holds its word. -/
theorem Memory.read_loadImage_of_mem {m : Memory} (hm : m.wf = true) {image : List (Word × Word)}
    (once : (image.map Prod.fst).Nodup) {a v : Word} (inside : (a, v) ∈ image) :
    (m.loadImage image).read a = v := by
  induction image generalizing m with
  | nil => cases inside
  | cons cell rest ih =>
    obtain ⟨outsideRest, onceRest⟩ := List.nodup_cons.mp once
    have hw := Memory.wf_write hm cell.1 cell.2
    rcases List.mem_cons.mp inside with rfl | insideRest
    · calc ((m.write a v).loadImage rest).read a
          = (m.write a v).read a := Memory.read_loadImage_of_not_mem hw outsideRest
        _ = v := by rw [Memory.read_write hm, if_pos rfl]
    · exact ih hw onceRest insideRest

/-- R45: every register is 0 after reset. -/
theorem reset_reg (r : Reg) : State.reset.reg r = 0x0000#16 := by
  cases r <;> rfl

/-- R45: every word of memory is 0 after reset. -/
theorem reset_load (a : Word) : State.reset.load a = 0x0000#16 := by
  simp only [State.load, State.reset, Memory.read, Memory.readByte]
  rfl

/-- Settles O6: the values are those of the definition. -/
theorem resetLeavesTheStatedValues : Obligations.ResetLeavesTheStatedValues :=
  ⟨reset_reg, rfl, rfl, reset_load, rfl, rfl, fun _ _ _ => rfl⟩

/-- Settles O7: launch differs from reset in memory, PC and INPUT, and its memory is the image over the empty one. -/
theorem launchLoadsTheImage : Obligations.LaunchLoadsTheImage := by
  intro image entry input once
  have canonical : State.reset.mem.wf = true := rfl
  exact ⟨fun a v inside => Memory.read_loadImage_of_mem canonical once inside,
    fun a outside => (Memory.read_loadImage_of_not_mem canonical outside).trans (reset_load a),
    rfl, reset_reg, rfl, rfl, rfl, rfl, rfl⟩

/-- Settles O8, by the four ranges of an index. -/
theorem registerFileIndices : Obligations.RegisterFileIndices := by
  intro s
  refine ⟨fun r => ?_, rfl, rfl, fun k outside => ?_⟩
  · rw [State.readSlot, if_pos r.toBits.isLt, BitVec.ofNat_toNat, BitVec.setWidth_eq, Reg.ofBits_toBits]
  · rw [State.readSlot, if_neg (by omega), if_neg (by omega), if_neg (by omega)]

/-! ### The outcome port and ended runs -/

/-- Settles O56, by the three run states. -/
theorem outcomesMapToExitCodes : Obligations.OutcomesMapToExitCodes := by
  refine ⟨Nat.succ_ne_zero _, fun s => ⟨fun running => ?_, fun halted => ?_, fun f faulted => ?_⟩⟩
  · simp [State.result, State.exitCode, State.diagnostic, running]
  · simp [State.result, State.exitCode, State.diagnostic, halted]
  · simp [State.result, State.exitCode, State.diagnostic, faulted]

/-- R44: a step of an ended run changes nothing. -/
theorem step_of_ended {s : State} (ended : s.run ≠ .running) : step s = .next s := by
  rcases step_cases s with ⟨running, -⟩ | ⟨-, running, -⟩ | ⟨-, e⟩
  · exact absurd running ended
  · exact absurd running ended
  · exact e

/-- Settles O54, by induction on the number of steps. -/
theorem endedRunsAreFinal : Obligations.EndedRunsAreFinal := by
  intro s k ended
  induction k with
  | zero => rfl
  | succ k ih => rw [run_succ k (step_of_ended ended), ih]

/-! ### Who reads COND -/

/-- R38: a console read does not look at COND. -/
theorem State.consoleRead_setCond (s : State) (c : Word) :
    (s.setCond c).consoleRead = s.consoleRead.map fun (answer, t) => (answer, t.setCond c) := by
  simp only [State.consoleRead, State.setCond_input, Option.map_map]
  rfl

/-- R38: GETC does not read COND. -/
theorem State.serviceGetc_setCond (s : State) (c d : Word) :
    (s.setCond c).serviceGetc.setCond d = s.serviceGetc.setCond d := by
  simp only [State.serviceGetc, State.consoleRead_setCond]
  cases s.consoleRead <;> rfl

/-- R38: IN does not read COND. -/
theorem State.serviceIn_setCond (s : State) (c d : Word) :
    (s.setCond c).serviceIn.setCond d = s.serviceIn.setCond d := by
  have prompt : (s.setCond c).consoleWrite Config.inPrompt = (s.consoleWrite Config.inPrompt).setCond c := rfl
  simp only [State.serviceIn, State.serviceInRead, prompt, State.consoleRead_setCond]
  cases (s.consoleWrite Config.inPrompt).consoleRead <;> rfl

/-- R38: PUTS does not read COND. -/
theorem State.servicePuts_setCond (s : State) (c d : Word) :
    (s.setCond c).servicePuts.setCond d = s.servicePuts.setCond d := by
  simp only [State.servicePuts, State.setCond_mem, State.setCond_reg]
  cases s.mem.stringAt Config.memoryWords (s.reg .r0) <;> rfl

/-- R38: PUTSP does not read COND. -/
theorem State.servicePutsp_setCond (s : State) (c d : Word) :
    (s.setCond c).servicePutsp.setCond d = s.servicePutsp.setCond d := by
  simp only [State.servicePutsp, State.setCond_mem, State.setCond_reg]
  cases s.mem.stringAt Config.memoryWords (s.reg .r0) <;> rfl

/-- R38: TRAP does not read COND, whatever its vector. -/
theorem execTrap_setCond {vector : BitVec 8} {s t : State} (c d : Word) (h : execTrap vector s = .next t) :
    ∃ t', execTrap vector (s.setCond c) = .next t' ∧ t'.setCond d = t.setCond d := by
  unfold execTrap at h ⊢
  cases selects : serviceOf vector with
  | none =>
    rw [selects] at h
    cases h
    exact ⟨_, rfl, rfl⟩
  | some sv =>
    rw [selects] at h
    cases sv with
    | getc => cases h; exact ⟨_, rfl, s.link.serviceGetc_setCond c d⟩
    | out => cases h; exact ⟨_, rfl, rfl⟩
    | puts => cases h; exact ⟨_, rfl, s.link.servicePuts_setCond c d⟩
    | inp => cases h; exact ⟨_, rfl, s.link.serviceIn_setCond c d⟩
    | putsp => cases h; exact ⟨_, rfl, s.link.servicePutsp_setCond c d⟩
    | halt => cases h; exact ⟨_, rfl, rfl⟩

/-- Settles O17: every instruction but BR and TRAP computes the same values from a state with another COND, and TRAP's
services do. -/
theorem onlyBranchesReadCond : Obligations.OnlyBranchesReadCond := by
  intro i s t c noBranch answer
  cases i with
  | br cond o => cases noBranch
  | trap vector => exact execTrap_setCond c 0#16 answer
  | addReg | addImm | andReg | andImm | not | ld | ldi | ldr | lea | st | sti | str | jmp | jsr | jsrr | rti | res =>
    cases answer
    exact ⟨_, rfl, rfl⟩

end Sys2Proof.Machine
end

