-- ==== Sys2Proof/Proofs/Memory.lean ====
section
/-! PROOFS. The statements of 20_memory.md: a canonical memory is determined by its words (R70, R71), only the stores
write memory (R87), and a fetch sees the last store (R85, R308). -/

namespace Sys2Proof.Machine

open Sys2Proof

/-! ### A canonical memory is determined by its words -/

/-- R74: the low byte of a word of memory is the byte at its low key. -/
@[simp] theorem Memory.lowByte_read (m : Memory) (a : Word) : lowByte (m.read a) = m.readByte (lowKey a) :=
  BitVec.extractLsb'_append_eq_right

/-- R74: the high byte of a word of memory is the byte at its high key. -/
@[simp] theorem Memory.highByte_read (m : Memory) (a : Word) : highByte (m.read a) = m.readByte (highKey a) :=
  BitVec.extractLsb'_append_eq_left

/-- R70: every place of the byte list is that of the low or the high byte of a word. -/
theorem exists_key_eq {k : Nat} (inside : k < 2 * Config.memoryWords) : ∃ a, k = lowKey a ∨ k = highKey a := by
  have word : k / 2 < 65536 := by
    simp only [Config.memoryWords] at inside
    omega
  refine ⟨BitVec.ofNat 16 (k / 2), ?_⟩
  simp only [lowKey, highKey, BitVec.toNat_ofNat, Nat.mod_eq_of_lt word]
  omega

/-- Memories that hold the same words hold the same bytes. -/
theorem Memory.readByte_congr {m m' : Memory} (same : ∀ a, m.read a = m'.read a) {k : Nat}
    (inside : k < 2 * Config.memoryWords) : m.readByte k = m'.readByte k := by
  obtain ⟨a, rfl | rfl⟩ := exists_key_eq inside
  · rw [← Memory.lowByte_read, same, Memory.lowByte_read]
  · rw [← Memory.highByte_read, same, Memory.highByte_read]

/-- In canonical form a listed byte is the byte read at its place. -/
theorem Memory.readByte_of_mem {m : Memory} (hm : m.wf = true) {c : Host.Cell} (listed : c ∈ m) :
    m.readByte c.1 = c.2 := by
  induction m with
  | nil => cases listed
  | cons d rest ih =>
    rcases List.mem_cons.mp listed with rfl | later
    · exact if_pos rfl
    · calc Memory.readByte (d :: rest) c.1
          = Memory.readByte rest c.1 := if_neg (Nat.ne_of_lt (Memory.wf_head hm c later))
        _ = c.2 := ih (Memory.wf_tail hm) later

/-- A byte that does not read as unlisted is listed. -/
theorem Memory.mem_of_readByte {m : Memory} {k : Nat} (written : m.readByte k ≠ Memory.unlisted) :
    (k, m.readByte k) ∈ m := by
  induction m with
  | nil => exact absurd rfl written
  | cons d rest ih =>
    simp only [Memory.readByte] at written ⊢
    split at written
    · next here => simp [← here]
    · next other =>
      rw [if_neg other]
      exact List.mem_cons_of_mem _ (ih written)

/-- A canonical memory lists only bytes of every memory that holds the same words. -/
theorem Memory.subset_of_read_eq {m m' : Memory} (hm : m.wf = true) (same : ∀ a, m.read a = m'.read a) : m ⊆ m' := by
  intro c listed
  obtain ⟨written, inside⟩ := (Memory.wf_iff.mp hm).2 c listed
  have holds : m'.readByte c.1 = c.2 := by
    rw [← Memory.readByte_congr same inside, Memory.readByte_of_mem hm listed]
  have listed' := Memory.mem_of_readByte (m := m') (k := c.1) (by rwa [holds])
  rwa [holds] at listed'

/-- Settles O9: each memory lists the bytes of the other, and both list them in rising order. -/
theorem canonicalMemoriesAreDeterminedByTheirWords : Obligations.CanonicalMemoriesAreDeterminedByTheirWords := by
  intro m m' hm hm' same
  have irrefl : Std.Irrefl fun c d : Host.Cell => c.1 < d.1 := ⟨fun c => Nat.lt_irrefl c.1⟩
  have antisymm : Std.Antisymm fun c d : Host.Cell => c.1 < d.1 := ⟨fun _ _ lt gt => absurd gt (Nat.lt_asymm lt)⟩
  exact List.Subset.antisymm_of_pairwise (Memory.wf_iff.mp hm).1 (Memory.wf_iff.mp hm').1
    (Memory.subset_of_read_eq hm same) (Memory.subset_of_read_eq hm' fun a => (same a).symm)

/-! ### What an instruction writes to memory -/

/-- R87: the instructions that write memory, and the register whose value they write. -/
def StoresRegister (i : Instr) (sr : Reg) : Prop :=
  (∃ o, i = .st sr o) ∨ (∃ o, i = .sti sr o) ∨ ∃ b o, i = .str sr b o

/-- R190 to R192: ST, STI and STR write their register at the address they compute, and do nothing else. -/
theorem StoresRegister.exec_eq {i : Instr} {sr : Reg} {s : State} {ea : Word} (stores : StoresRegister i sr)
    (address : storeAddress i s = some ea) : exec i s = .next (s.store ea (s.reg sr)) := by
  rcases stores with ⟨o, rfl⟩ | ⟨o, rfl⟩ | ⟨b, o, rfl⟩ <;> cases address <;> rfl

/-- R87: only ST, STI and STR have an address to write. -/
theorem exists_storesRegister {i : Instr} {s : State} {ea : Word} (address : storeAddress i s = some ea) :
    ∃ sr, StoresRegister i sr := by
  cases i with
  | st sr o => exact ⟨sr, .inl ⟨o, rfl⟩⟩
  | sti sr o => exact ⟨sr, .inr (.inl ⟨o, rfl⟩)⟩
  | str sr b o => exact ⟨sr, .inr (.inr ⟨b, o, rfl⟩)⟩
  | br | jmp | jsr | jsrr | trap | rti | res | addReg | addImm | andReg | andImm | not | ld | ldi | ldr | lea =>
    cases address

/-- R224: no service writes memory. -/
theorem ServiceEffect.mem {sv : Service} {u t : State} (h : ServiceEffect sv u t) : t.mem = u.mem := by
  cases h <;> rfl

/-- R224: TRAP writes no memory, whatever its vector. -/
theorem execTrap_mem {vector : BitVec 8} {s t : State} (answer : execTrap vector s = .next t) : t.mem = s.mem := by
  unfold execTrap at answer
  split at answer <;> cases answer
  · exact (ServiceEffect.of_getc s.link).mem
  · rfl
  · exact (ServiceEffect.of_puts s.link).mem
  · exact (ServiceEffect.of_in s.link).mem
  · exact (ServiceEffect.of_putsp s.link).mem
  · rfl
  · rfl

/-- R87: an instruction without an address to write leaves memory. -/
theorem exec_mem_of_storeAddress_eq_none {i : Instr} {s t : State} (noAddress : storeAddress i s = none)
    (answer : exec i s = .next t) : t.mem = s.mem := by
  cases i with
  | st | sti | str => cases noAddress
  | br cond o =>
    have target := (execBr_eq cond o s).symm.trans answer
    cases target
    rfl
  | trap vector => exact execTrap_mem answer
  | jmp | jsr | jsrr | rti | res | addReg | addImm | andReg | andImm | not | ld | ldi | ldr | lea =>
    cases answer
    rfl

/-- Settles O11: an instruction with an address writes the word there, and one without leaves memory. -/
theorem onlyStoresWriteMemory : Obligations.OnlyStoresWriteMemory := by
  intro i s t answer k outside
  cases address : storeAddress i s with
  | none => rw [exec_mem_of_storeAddress_eq_none address answer]
  | some ea =>
    obtain ⟨sr, stores⟩ := exists_storesRegister address
    rw [stores.exec_eq address] at answer
    cases answer
    obtain ⟨notLow, notHigh⟩ := outside ea address
    exact Memory.readByte_write_other s.mem ea (s.reg sr) notLow notHigh

/-! ### A store to the next instruction -/

/-- R302: a ready machine's step runs the fetched instruction. -/
theorem State.ready.step_eq {s : State} (ready : s.ready) : step s = exec (decode s.fetchWord) s.advancePc := by
  obtain ⟨running, idle⟩ := ready
  simp only [step, running, idle]

/-- R85: a store at PC is what is fetched. -/
theorem State.fetchWord_store_pc {s : State} (hm : s.mem.wf = true) (v : Word) : (s.store s.pc v).fetchWord = v :=
  (State.load_store hm s.pc v s.pc).trans (if_pos rfl)

/-- Settles O10: the state after the store is ready, with PC at the stored word. -/
theorem storeToTheNextAddressIsFetched : Obligations.StoreToTheNextAddressIsFetched := by
  intro s t sr hm ready answer stores address
  have stored : exec (decode s.fetchWord) s.advancePc = .next (s.advancePc.store s.advancePc.pc (s.reg sr)) :=
    StoresRegister.exec_eq stores address
  rw [ready.step_eq, stored] at answer
  have after : t = s.advancePc.store s.advancePc.pc (s.reg sr) := (Host.Outcome.next.inj answer).symm
  have readyAfter : t.ready := after ▸ ready
  have fetched : t.fetchWord = s.reg sr := after ▸ State.fetchWord_store_pc (s := s.advancePc) hm (s.reg sr)
  exact ⟨fetched, by rw [readyAfter.step_eq, fetched]⟩

end Sys2Proof.Machine
end

