-- ==== Sys2Proof/Proofs/Encoding.lean ====
section
/-! PROOFS. The statements of 30_encoding.md about the opcode table (R112, R118, R120, R123). The key fact is
`decode_eq_of_row`: a word that matches a row decodes to the row's instruction with the operands the format names. -/

namespace Sys2Proof

/-! ### Words under masks -/

/-- R101: a word under the mask of bits[15:12] is its opcode. -/
theorem and_opcodeMask (w : Word) : w &&& 0xF000#16 = fieldOpcode w ++ 0#12 := by
  refine word_eq_of_bits fun k hk => ?_
  simp only [fieldOpcode, BitVec.getLsbD_and, BitVec.getLsbD_append, BitVec.getLsbD_extractLsb']
  interval_cases k <;> simp

/-- A word under two masks, the first inside the second: the part under the first and the rest. -/
theorem and_or_and_not_of_inside {w inner outer : Word} (inside : outer &&& inner = inner) :
    (w &&& inner) ||| (w &&& outer &&& ~~~inner) = w &&& outer := by
  calc (w &&& inner) ||| (w &&& outer &&& ~~~inner)
      = (w &&& outer &&& inner) ||| (w &&& outer &&& ~~~inner) := by rw [BitVec.and_assoc w outer inner, inside]
    _ = w &&& outer &&& (inner ||| ~~~inner) := BitVec.and_or_distrib_left.symm
    _ = w &&& outer := by rw [BitVec.or_not_self, BitVec.and_allOnes]

/-- A mask over an exclusive or is a mask over both sides. -/
theorem xor_and_distrib (v w mask : Word) : (v ^^^ w) &&& mask = (v &&& mask) ^^^ (w &&& mask) := by
  apply BitVec.eq_of_toNat_eq
  simp only [BitVec.toNat_and, BitVec.toNat_xor, Nat.and_xor_distrib_right]

/-- A mask that covers a field leaves it. -/
theorem extractLsb'_and_of_covered {w mask : Word} {start len : Nat}
    (covered : mask.extractLsb' start len = BitVec.allOnes len) :
    (w &&& mask).extractLsb' start len = w.extractLsb' start len := by
  rw [BitVec.extractLsb'_and, covered, BitVec.and_allOnes]

/-! ### The rows of the opcode table -/

/-- The instruction of the same row of the opcode table with the operands that its format reads from `w`. -/
def Instr.withOperandsOf (w : Word) : Instr → Instr
  | .br _ _ => .br (fieldCond w) (fieldPcOffset9 w)
  | .addReg _ _ _ => .addReg (fieldDR w) (fieldBase w) (fieldSR2 w)
  | .addImm _ _ _ => .addImm (fieldDR w) (fieldBase w) (fieldImm5 w)
  | .ld _ _ => .ld (fieldDR w) (fieldPcOffset9 w)
  | .st _ _ => .st (fieldDR w) (fieldPcOffset9 w)
  | .jsr _ => .jsr (fieldPcOffset11 w)
  | .jsrr _ => .jsrr (fieldBase w)
  | .andReg _ _ _ => .andReg (fieldDR w) (fieldBase w) (fieldSR2 w)
  | .andImm _ _ _ => .andImm (fieldDR w) (fieldBase w) (fieldImm5 w)
  | .ldr _ _ _ => .ldr (fieldDR w) (fieldBase w) (fieldOffset6 w)
  | .str _ _ _ => .str (fieldDR w) (fieldBase w) (fieldOffset6 w)
  | .rti => .rti
  | .not _ _ => .not (fieldDR w) (fieldBase w)
  | .ldi _ _ => .ldi (fieldDR w) (fieldPcOffset9 w)
  | .sti _ _ => .sti (fieldDR w) (fieldPcOffset9 w)
  | .jmp _ => .jmp (fieldBase w)
  | .res => .res
  | .lea _ _ => .lea (fieldDR w) (fieldPcOffset9 w)
  | .trap _ => .trap (fieldTrapvect8 w)

@[simp] theorem Instr.rowMatch_withOperandsOf (i : Instr) (w : Word) :
    (i.withOperandsOf w).rowMatch = i.rowMatch := by
  cases i <;> rfl

@[simp] theorem Instr.namedBits_withOperandsOf (i : Instr) (w : Word) :
    (i.withOperandsOf w).namedBits = i.namedBits := by
  cases i <;> rfl

/-- R101: every row fixes the opcode. -/
theorem Instr.getLsbD_rowMask_of_opcode (i : Instr) {k : Nat} (low : 12 ≤ k) (high : k < 16) :
    i.rowMask.getLsbD k = true := by
  interval_cases k <;> cases i <;> simp [Instr.rowMask]

/-- R117: the bit that tells a row from the other row of its opcode; where the opcode has one row, a bit of the
opcode. -/
def Instr.selectorBit : Instr → Nat
  | .addReg _ _ _ | .addImm _ _ _ | .andReg _ _ _ | .andImm _ _ _ => 5
  | .jsr _ | .jsrr _ => 11
  | .br _ _ | .ld _ _ | .st _ _ | .ldr _ _ _ | .str _ _ _ | .rti | .not _ _ | .ldi _ _ | .sti _ _ | .jmp _ | .res
  | .lea _ _ | .trap _ => 15

/-- R101, R117: a row's mask is the opcode and the selector bit. -/
theorem Instr.rowMask_eq (i : Instr) : i.rowMask = 0xF000#16 ||| BitVec.twoPow 16 i.selectorBit := by
  cases i <;> simp only [Instr.rowMask, Instr.selectorBit] <;> decide

/-- R117: every row fixes its selector bit. -/
theorem Instr.getLsbD_rowMask_selectorBit (i : Instr) : i.rowMask.getLsbD i.selectorBit = true := by
  cases i <;> simp [Instr.rowMask, Instr.selectorBit]

/-- A row's match value has no bit outside its mask. -/
theorem Instr.rowMatch_and_rowMask (i : Instr) : i.rowMatch &&& i.rowMask = i.rowMatch := by
  cases i <;> simp only [Instr.rowMatch, Instr.rowMask] <;> rfl

/-- R101, R117: a word with a row's opcode and selector bit matches the row. -/
theorem Instr.matches_row (i : Instr) {w : Word} (opcode : fieldOpcode w = fieldOpcode i.rowMatch)
    (selector : w.getLsbD i.selectorBit = i.rowMatch.getLsbD i.selectorBit) : w &&& i.rowMask = i.rowMatch := by
  calc w &&& i.rowMask
      = i.rowMatch &&& i.rowMask := by
        rw [i.rowMask_eq, BitVec.and_or_distrib_left, BitVec.and_or_distrib_left, and_opcodeMask, and_opcodeMask,
          opcode, BitVec.and_twoPow, BitVec.and_twoPow, selector]
    _ = i.rowMatch := i.rowMatch_and_rowMask

/-- R118: the bits that select a row are bits the format names. -/
theorem Instr.namedBits_and_rowMask (i : Instr) : i.namedBits &&& i.rowMask = i.rowMask := by
  cases i <;> simp only [Instr.namedBits, Instr.rowMask] <;> rfl

/-- R102 to R112: the operands lie in the bits the format names. -/
theorem Instr.withOperandsOf_and_namedBits (i : Instr) (w : Word) :
    i.withOperandsOf (w &&& i.namedBits) = i.withOperandsOf w := by
  cases i <;>
    simp (disch := decide) only [Instr.withOperandsOf, Instr.namedBits, fieldCond, fieldDR, fieldBase, fieldSR2,
      fieldImm5, fieldOffset6, fieldPcOffset9, fieldPcOffset11, fieldTrapvect8, extractLsb'_and_of_covered]

/-! ### Decoding by rows -/

/-- R118: a word that matches a row of the opcode table decodes to the row's instruction. -/
theorem decode_eq_of_row (i : Instr) {w : Word} (row : w &&& i.rowMask = i.rowMatch) :
    decode w = i.withOperandsOf w := by
  have opcode {k : Nat} (low : 12 ≤ k) (high : k < 16) : w.getLsbD k = i.rowMatch.getLsbD k :=
    getLsbD_of_mask row (i.getLsbD_rowMask_of_opcode low high)
  have selector : w.getLsbD i.selectorBit = i.rowMatch.getLsbD i.selectorBit :=
    getLsbD_of_mask row i.getLsbD_rowMask_selectorBit
  unfold decode
  rw [opcode (k := 15) (by omega) (by omega), opcode (k := 14) (by omega) (by omega),
    opcode (k := 13) (by omega) (by omega), opcode (k := 12) (by omega) (by omega)]
  cases i with
  | addReg | addImm | andReg | andImm | jsr | jsrr =>
    simp only [Instr.selectorBit] at selector
    rw [selector]
    simp [Instr.rowMatch, Instr.withOperandsOf]
  | br | ld | st | ldr | str | rti | not | ldi | sti | jmp | res | lea | trap =>
    simp [Instr.rowMatch, Instr.withOperandsOf]

/-- R118: a word matches the row of its own instruction, since `decode` branches on the opcode and the selector bit. -/
theorem decode_matches_row (w : Word) : w &&& (decode w).rowMask = (decode w).rowMatch := by
  refine (decode w).matches_row (Machine.fieldOpcode_rowMatch_decode w).symm ?_
  unfold decode
  split <;> (try split) <;> simp only [Instr.selectorBit, Instr.rowMatch, *] <;> rfl

/-- R118: the decoder looks only at the bits that the format of the word's row names. -/
theorem decode_congr {w w' : Word} (same : w' &&& (decode w).namedBits = w &&& (decode w).namedBits) :
    decode w' = decode w := by
  have row : w' &&& (decode w).rowMask = (decode w).rowMatch := by
    rw [← (decode w).namedBits_and_rowMask, ← BitVec.and_assoc, same, BitVec.and_assoc,
      Instr.namedBits_and_rowMask, decode_matches_row]
  calc decode w'
      = (decode w).withOperandsOf w' := decode_eq_of_row _ row
    _ = (decode w).withOperandsOf w := by
      rw [← Instr.withOperandsOf_and_namedBits, same, Instr.withOperandsOf_and_namedBits]
    _ = decode w := (decode_eq_of_row _ (decode_matches_row w)).symm

/-- R120: changing bits that the format of the word's row does not name gives the same instruction. -/
theorem decode_xor_of_row (i : Instr) {w unread : Word} (row : w &&& i.rowMask = i.rowMatch)
    (unnamed : unread &&& i.namedBits = 0#16) (x : Word) : decode (w ^^^ (x &&& unread)) = decode w := by
  apply decode_congr
  rw [decode_eq_of_row i row, Instr.namedBits_withOperandsOf, xor_and_distrib, BitVec.and_assoc x, unnamed,
    BitVec.and_zero, BitVec.xor_zero]

/-! ### Encoding what was decoded -/

/-- R102 to R112: the word of a row's instruction has the row's match value and, in the other named bits, the bits
its operands were read from. -/
theorem encode_withOperandsOf (i : Instr) (w : Word) :
    encode (i.withOperandsOf w) = i.rowMatch ||| (w &&& i.namedBits &&& ~~~i.rowMask) := by
  refine word_eq_of_bits fun k hk => ?_
  cases i <;>
    (simp only [Instr.withOperandsOf, encode, Instr.rowMatch, Instr.namedBits, Instr.rowMask, fieldCond, fieldDR,
      fieldBase, fieldSR2, fieldImm5, fieldOffset6, fieldPcOffset9, fieldPcOffset11, fieldTrapvect8,
      Reg.toBits_ofBits, BitVec.getLsbD_or, BitVec.getLsbD_and, BitVec.getLsbD_append, BitVec.getLsbD_extractLsb']
     interval_cases k <;> simp)

/-! ### The statements -/

/-- Settles O2: a word that matches a row decodes to that row's instruction, whose match value does not depend on
its operands. -/
theorem everyWordDecodesToOneRow : Obligations.EveryWordDecodesToOneRow := by
  refine fun w => ⟨decode_matches_row w, fun i row => ?_, fun w' same => decode_congr same⟩
  rw [decode_eq_of_row i row, Instr.rowMatch_withOperandsOf]

/-- Settles O3: the row's bits and the operands' bits of a word are together its named bits. -/
theorem encodeOfDecodeKeepsNamedBits : Obligations.EncodeOfDecodeKeepsNamedBits := by
  intro w
  have row := decode_matches_row w
  calc encode (decode w)
      = encode ((decode w).withOperandsOf w) := by rw [← decode_eq_of_row _ row]
    _ = (decode w).rowMatch ||| (w &&& (decode w).namedBits &&& ~~~(decode w).rowMask) := encode_withOperandsOf _ w
    _ = w &&& (decode w).namedBits := by rw [← row, and_or_and_not_of_inside (Instr.namedBits_and_rowMask _)]

/-- Settles O4: in each clause the changed bits are outside the named bits of the row. The operands of the row's
instruction are immaterial, since a row's masks do not depend on them. -/
theorem unusedBitsAreIgnored : Obligations.UnusedBitsAreIgnored := fun _ x =>
  ⟨fun row => decode_xor_of_row (.addReg .r0 .r0 .r0) row rfl x,
   fun row => decode_xor_of_row (.andReg .r0 .r0 .r0) row rfl x,
   fun row => decode_xor_of_row (.not .r0 .r0) row rfl x,
   fun row => decode_xor_of_row (.jmp .r0) row rfl x,
   fun row => decode_xor_of_row (.jsrr .r0) row rfl x,
   fun row => decode_xor_of_row (.trap 0#8) row rfl x⟩

/-- R123: NOP is BR with cond = 000, whatever its offset. -/
theorem decode_nop (offset : BitVec 9) : decode (0#7 ++ offset) = .br 0#3 offset := by
  have row := Laws.EncodeMatchesRow.br 0#3 offset
  calc decode (0#7 ++ offset)
      = .br (fieldCond (0#7 ++ offset)) (fieldPcOffset9 (0#7 ++ offset)) := decode_eq_of_row (.br 0#3 offset) row
    _ = .br 0#3 offset := by
      rw [fieldCond, fieldPcOffset9, BitVec.extractLsb'_append_eq_of_le le_rfl, BitVec.extractLsb'_append_eq_right]
      rfl

/-- Settles O5: `decode` evaluates on each closed word, and NOP has its lemma. -/
theorem specWordsDecode : Obligations.SpecWordsDecode :=
  ⟨rfl, rfl, rfl, rfl, rfl, rfl, rfl, rfl, decode_nop,
   rfl, rfl, rfl, rfl, rfl, rfl, rfl, rfl, rfl, rfl, rfl, rfl, rfl, rfl⟩

end Sys2Proof

namespace Sys2Proof.Machine

/-- R262, R264: entering Faulted writes the run state and nothing else. -/
theorem State.raise_frame (s : State) (f : FaultRecord) :
    (s.raise f).pc = s.pc ∧ RegsSameBut [] s (s.raise f) ∧ (s.raise f).cond = s.cond ∧
      MemorySame s (s.raise f) ∧ ConsoleSame s (s.raise f) :=
  ⟨rfl, fun _ _ => rfl, rfl, fun _ => rfl, rfl, rfl, rfl⟩

/-- R250: RTI raises IllegalOpcode. -/
theorem exec_rti (s : State) : exec .rti s = .next (s.raise (.illegalOpcode (s.pc - 1#16) 0x8#4)) := rfl

/-- R251: RES raises IllegalOpcode. -/
theorem exec_res (s : State) : exec .res s = .next (s.raise (.illegalOpcode (s.pc - 1#16) 0xD#4)) := rfl

/-- Settles O51: the two rows name no bit but the opcode, and both meanings only raise. -/
theorem reservedOpcodesFault : Obligations.ReservedOpcodesFault :=
  ⟨fun _ row => decode_eq_of_row .rti row, fun _ row => decode_eq_of_row .res row,
   fun s => ⟨⟨_, exec_rti s, rfl, s.raise_frame _⟩, _, exec_res s, rfl, s.raise_frame _⟩⟩

end Sys2Proof.Machine
end

