-- ==== Sys2Proof/Proofs/AddressesAndIdioms.lean ====
section
/-! PROOFS. Effective addresses (R73, R114, R115) and the results of the idioms (R124). -/

namespace Sys2Proof.Machine

open Sys2Proof

/-! ### Effective addresses -/

/-- R73: a word plus a sign-extended offset is the unsigned word plus the signed offset, modulo 2^16. -/
theorem toNat_add_sext {n : Nat} (hn : n ≤ 16) (base : Word) (offset : BitVec n) :
    ((base + sext offset).toNat : Int) = (base.toNat + offset.toInt) % 65536 := by
  rw [← toInt_sext hn offset, BitVec.toNat_add, BitVec.toInt_eq_toNat_cond]
  split <;> omega

/-- Settles O13: each address is a base plus a sign-extended offset. -/
theorem effectiveAddressesWrap : Obligations.EffectiveAddressesWrap := fun s =>
  ⟨toNat_add_sext (by omega) s.pc, toNat_add_sext (by omega) s.pc, fun b => toNat_add_sext (by omega) (s.reg b)⟩

/-! ### Sequences of operate instructions -/

@[simp] theorem State.reg_writeRegFlags (s : State) (r q : Reg) (v : Word) :
    (s.writeRegFlags r v).reg q = if q = r then v else s.reg q := by
  rw [State.writeRegFlags_eq, State.setCond_reg, State.reg_writeReg]

@[simp] theorem State.cond_writeRegFlags (s : State) (r : Reg) (v : Word) :
    (s.writeRegFlags r v).cond = setcc v := by
  rw [State.writeRegFlags_eq, State.setCond_cond]

/-- A sequence whose first instruction has a next state goes on from there. -/
theorem execSeq_cons {i : Instr} {is : List Instr} {s t : State} (answer : exec i s = .next t) :
    execSeq (i :: is) s = execSeq is t := by
  simp only [execSeq, answer]

/-- R130: ADD, register mode, writes the sum and its flags. -/
theorem exec_addReg (dr sr1 sr2 : Reg) (s : State) :
    exec (.addReg dr sr1 sr2) s = .next (s.writeRegFlags dr (s.reg sr1 + s.reg sr2)) := rfl

/-- R131: ADD, immediate mode, writes the sum and its flags. -/
theorem exec_addImm (dr sr1 : Reg) (imm5 : BitVec 5) (s : State) :
    exec (.addImm dr sr1 imm5) s = .next (s.writeRegFlags dr (s.reg sr1 + sext imm5)) := rfl

/-- R133: AND, register mode, writes the conjunction and its flags. -/
theorem exec_andReg (dr sr1 sr2 : Reg) (s : State) :
    exec (.andReg dr sr1 sr2) s = .next (s.writeRegFlags dr (s.reg sr1 &&& s.reg sr2)) := rfl

/-- R134: AND, immediate mode, writes the conjunction and its flags. -/
theorem exec_andImm (dr sr1 : Reg) (imm5 : BitVec 5) (s : State) :
    exec (.andImm dr sr1 imm5) s = .next (s.writeRegFlags dr (s.reg sr1 &&& sext imm5)) := rfl

/-- R136: NOT writes the complement and its flags. -/
theorem exec_not (dr sr1 : Reg) (s : State) :
    exec (.not dr sr1) s = .next (s.writeRegFlags dr (~~~(s.reg sr1))) := rfl

/-! ### The idioms -/

theorem sext_imm5_zero : sext 0#5 = 0#16 := rfl

theorem sext_imm5_one : sext 1#5 = 1#16 := rfl

/-- R124, MOV: adding 0 copies a register and sets the flags of its value. -/
theorem execSeq_mov (s : State) (d r : Reg) :
    ∃ t, execSeq [.addImm d r 0#5] s = .next t ∧ t.reg d = s.reg r ∧ t.cond = setcc (s.reg r) :=
  ⟨_, execSeq_cons (exec_addImm ..), by simp [sext_imm5_zero], by simp [sext_imm5_zero]⟩

/-- R124, clear: the conjunction with 0 is 0. -/
theorem execSeq_clear (s : State) (d : Reg) :
    ∃ t, execSeq [.andImm d d 0#5] s = .next t ∧ t.reg d = 0#16 ∧ t.cond = condZro :=
  ⟨_, execSeq_cons (exec_andImm ..), by simp [sext_imm5_zero], by simp [sext_imm5_zero]⟩

/-- R124, negate: the complement plus 1, with every other register left. -/
theorem execSeq_negate (s : State) (d r : Reg) (is : List Instr) :
    ∃ t, execSeq (.not d r :: .addImm d d 1#5 :: is) s = execSeq is t ∧ t.reg d = -(s.reg r) ∧
      ∀ q, q ≠ d → t.reg q = s.reg q := by
  refine ⟨_, (execSeq_cons (exec_not ..)).trans (execSeq_cons (exec_addImm ..)), ?_, fun q other => ?_⟩
  · simp [sext_imm5_one, BitVec.neg_eq_not_add]
  · simp [other]

/-- R124, SUB: negate the subtrahend in Rd and add the minuend, which the negation leaves. -/
theorem execSeq_sub (s : State) {d a : Reg} (b : Reg) (distinct : d ≠ a) :
    ∃ t, execSeq [.not d b, .addImm d d 1#5, .addReg d d a] s = .next t ∧ t.reg d = s.reg a - s.reg b := by
  obtain ⟨t, negated, dest, others⟩ := execSeq_negate s d b [.addReg d d a]
  refine ⟨_, negated.trans (execSeq_cons (exec_addReg ..)), ?_⟩
  calc (t.writeRegFlags d (t.reg d + t.reg a)).reg d
      = -(s.reg b) + s.reg a := by simp [dest, others a distinct.symm]
    _ = s.reg a - s.reg b := by rw [BitVec.add_comm, ← BitVec.sub_eq_add_neg]

/-- R124, OR, by De Morgan: the first complement leaves Rb, and the second leaves the scratch register (log
entry 15). -/
theorem execSeq_or (s : State) {d b r : Reg} (a : Reg) (scratch_b : r ≠ b) (scratch_d : r ≠ d) :
    ∃ t, execSeq [.not r a, .not d b, .andReg d r d, .not d d] s = .next t ∧ t.reg d = s.reg a ||| s.reg b := by
  refine ⟨_, (execSeq_cons (exec_not ..)).trans <| (execSeq_cons (exec_not ..)).trans <|
    (execSeq_cons (exec_andReg ..)).trans (execSeq_cons (exec_not ..)), ?_⟩
  simp [scratch_b.symm, scratch_d, BitVec.not_and]

/-- R124, shift left: a register added to itself. -/
theorem execSeq_shiftLeft (s : State) (d r : Reg) :
    ∃ t, execSeq [.addReg d r r] s = .next t ∧ t.reg d = s.reg r <<< 1 := by
  refine ⟨_, execSeq_cons (exec_addReg ..), ?_⟩
  calc (s.writeRegFlags d (s.reg r + s.reg r)).reg d
      = s.reg r + s.reg r := by simp
    _ = s.reg r <<< 1 := by rw [← BitVec.two_mul, BitVec.mul_comm, BitVec.shiftLeft_eq_mul_twoPow]; rfl

/-- Settles O25, one idiom after another. -/
theorem idiomsComputeTheirResults : Obligations.IdiomsComputeTheirResults := by
  refine fun s => ⟨execSeq_mov s, execSeq_clear s, fun _ _ b => execSeq_sub s b, fun _ a _ _ => execSeq_or s a,
    execSeq_shiftLeft s, fun d r => ?_⟩
  obtain ⟨t, negated, dest, -⟩ := execSeq_negate s d r []
  exact ⟨t, negated, dest⟩

end Sys2Proof.Machine
end

/-! PROOFS. The operate instructions ADD, AND and NOT (R130 to R136): each decodes by its row of the opcode table and is
one flag-setting register write, whose whole effect is said once. -/

namespace Sys2Proof.Machine

open Sys2Proof

/-- R137, R138: a flag-setting destination write has the whole effect of a flag-setting instruction. -/
theorem State.writeRegFlags_effect (s : State) (dr : Reg) (v : Word) :
    WritesRegAndFlags s (s.writeRegFlags dr v) dr v where
  dest := by simp
  regs := fun q other => by simp [List.mem_singleton.not.mp other]
  flags := s.cond_writeRegFlags dr v
  pc := by simp [State.writeRegFlags_eq]
  mem := fun k => by simp [State.writeRegFlags_eq]
  console := by simp [ConsoleSame, State.writeRegFlags_eq]
  run := by simp [State.writeRegFlags_eq]

/-- An instruction that answers with a flag-setting destination write has its whole effect. -/
theorem exists_effect_of_exec {i : Instr} {s : State} {dr : Reg} {v : Word}
    (answer : exec i s = .next (s.writeRegFlags dr v)) : ∃ t, exec i s = .next t ∧ WritesRegAndFlags s t dr v :=
  ⟨_, answer, s.writeRegFlags_effect dr v⟩

/-- A next state of such an instruction is one with that effect. -/
theorem WritesRegAndFlags.of_exec {i : Instr} {s t : State} {dr : Reg} {v : Word}
    (meaning : exec i s = .next (s.writeRegFlags dr v)) (answer : exec i s = .next t) :
    WritesRegAndFlags s t dr v := by
  rw [meaning] at answer
  cases answer
  exact s.writeRegFlags_effect dr v

/-! ### Encoding, result, flags and frame -/

/-- Settles O18: the row gives the fields and the register write gives the rest. The operands of the row's
instruction are immaterial, since a row's masks do not depend on them. -/
theorem addRegisterWritesTheSum : Obligations.AddRegisterWritesTheSum :=
  ⟨fun _ row => decode_eq_of_row (.addReg .r0 .r0 .r0) row,
   fun dr sr1 sr2 s => exists_effect_of_exec (exec_addReg dr sr1 sr2 s)⟩

/-- Settles O19: the row gives the fields, the register write of the sum the rest. -/
theorem addImmediateWritesTheSum : Obligations.AddImmediateWritesTheSum :=
  ⟨fun _ row => decode_eq_of_row (.addImm .r0 .r0 0#5) row,
   fun dr sr1 imm5 s => exists_effect_of_exec (exec_addImm dr sr1 imm5 s)⟩

/-- Settles O21: the row gives the fields, the register write of the conjunction the rest. -/
theorem andRegisterWritesTheConjunction : Obligations.AndRegisterWritesTheConjunction :=
  ⟨fun _ row => decode_eq_of_row (.andReg .r0 .r0 .r0) row,
   fun dr sr1 sr2 s => exists_effect_of_exec (exec_andReg dr sr1 sr2 s)⟩

/-- Settles O22: as in register mode, with the immediate sign-extended before the conjunction. -/
theorem andImmediateWritesTheConjunction : Obligations.AndImmediateWritesTheConjunction :=
  ⟨fun _ row => decode_eq_of_row (.andImm .r0 .r0 0#5) row,
   fun dr sr1 imm5 s => exists_effect_of_exec (exec_andImm dr sr1 imm5 s)⟩

/-- Settles O24: NOT's row fixes the opcode only, so bits[5:0] are free (92 D7). -/
theorem notWritesTheComplement : Obligations.NotWritesTheComplement :=
  ⟨fun _ row => decode_eq_of_row (.not .r0 .r0) row, fun dr sr1 s => exists_effect_of_exec (exec_not dr sr1 s)⟩

/-! ### ADD as arithmetic, AND bit by bit -/

/-- R132: a signed sum above the signed range wraps to a negative word, which reads as NEG. -/
theorem setcc_add_of_positive_overflow {x y : Word} (overflow : 32768 ≤ x.toInt + y.toInt) :
    setcc (x + y) = condNeg := by
  have below : x.toInt + y.toInt < 65536 := by
    have hx : 2 * x.toInt < 65536 := BitVec.two_mul_toInt_lt
    have hy : 2 * y.toInt < 65536 := BitVec.two_mul_toInt_lt
    omega
  have negative : (x + y).toInt < 0 := by
    rw [BitVec.toInt_add, Int.bmod_def]
    split <;> omega
  apply setcc_of_negative
  calc (x + y).getLsbD 15
      = (x + y).msb := (BitVec.msb_eq_getLsbD_last _).symm
    _ = true := by rw [BitVec.msb_eq_toInt, decide_eq_true negative]

/-- Settles O20: both modes add two words, and an immediate has the signed value of its extension. -/
theorem addIsBothSumsModulo : Obligations.AddIsBothSumsModulo := by
  intro dr sr1 sr2 imm5 s t u register immediate
  have sum := WritesRegAndFlags.of_exec (exec_addReg dr sr1 sr2 s) register
  have sumImm := WritesRegAndFlags.of_exec (exec_addImm dr sr1 imm5 s) immediate
  rw [sum.dest, sum.flags, sumImm.dest, sumImm.flags, ← toInt_sext (by omega) imm5]
  exact ⟨BitVec.toNat_add .., BitVec.toInt_add .., setcc_add_of_positive_overflow,
    BitVec.toNat_add .., BitVec.toInt_add .., setcc_add_of_positive_overflow⟩

/-- Settles O23: the destination holds the conjunction, whose bits are the library's. -/
theorem andIsBitwise : Obligations.AndIsBitwise := by
  intro dr sr1 sr2 imm5 s t u register immediate i _
  rw [(WritesRegAndFlags.of_exec (exec_andReg dr sr1 sr2 s) register).dest,
    (WritesRegAndFlags.of_exec (exec_andImm dr sr1 imm5 s) immediate).dest]
  exact ⟨BitVec.getLsbD_and, BitVec.getLsbD_and⟩

end Sys2Proof.Machine

/-! PROOFS. The control transfers BR, JMP, JSR and JSRR (R150 to R156): each decodes by its row of the opcode table and
is a write of PC, which JSR and JSRR precede by the link. The effects of the two shapes are said once, and BR's
condition is read off COND's one set bit. -/

namespace Sys2Proof.Machine

open Sys2Proof

/-! ### The two shapes of a control transfer -/

/-- R35: a write of PC has the whole effect of a control transfer without a link. -/
theorem State.setPc_effect (s : State) (target : Word) : TransfersControl s (s.setPc target) [] target where
  target_pc := s.setPc_pc target
  link := nofun
  regs := fun q _ => s.setPc_reg target q
  flags := s.setPc_cond target
  mem := fun k => by rw [State.setPc_mem]
  console := ⟨s.setPc_out target, s.setPc_input target, s.setPc_routine target⟩
  run := s.setPc_run target

/-- R32: the link and a write of PC have the whole effect of a control transfer that links R7. -/
theorem State.link_setPc_effect (s : State) (target : Word) :
    TransfersControl s (s.link.setPc target) [.r7] target where
  target_pc := s.link.setPc_pc target
  link := fun q linked => by simp [List.mem_singleton.mp linked]
  regs := fun q other => by simp [List.mem_singleton.not.mp other]
  flags := by simp
  mem := fun k => by simp
  console := by simp [ConsoleSame]
  run := by simp

/-! ### What each instruction answers -/

/-- R150: BR writes PC, with the value it holds where the branch is not taken. -/
theorem exec_br (cond : BitVec 3) (o : BitVec 9) (s : State) :
    exec (.br cond o) s = .next (s.setPc (if branchTaken cond s.cond then s.pc + sext o else s.pc)) :=
  execBr_eq cond o s

/-- R152: JMP writes PC from its base register. -/
theorem exec_jmp (b : Reg) (s : State) : exec (.jmp b) s = .next (s.setPc (s.reg b)) := rfl

/-- R154: JSR links, then adds its offset to the post-fetch PC, which the link leaves unchanged. -/
theorem exec_jsr (o : BitVec 11) (s : State) : exec (.jsr o) s = .next (s.link.setPc (s.pc + sext o)) := rfl

/-- R155, R156: JSRR reads its base register after the link, so R7 reads as the post-fetch PC (92 D4). -/
theorem exec_jsrr (b : Reg) (s : State) :
    exec (.jsrr b) s = .next (s.link.setPc (if b = .r7 then s.pc else s.reg b)) := by
  have base : s.link.reg b = if b = .r7 then s.pc else s.reg b := by rw [State.link_eq, State.reg_writeReg]
  rw [← base]
  rfl

/-! ### Encoding, target and frame -/

/-- Settles O26: the row gives the fields, the write of PC the rest. -/
theorem branchGoesToItsTarget : Obligations.BranchGoesToItsTarget := by
  refine ⟨fun _ row => decode_eq_of_row (.br 0#3 0#9) row, fun cond o s => ⟨_, exec_br cond o s, ?_⟩⟩
  simp only [branchTaken, decide_eq_true_eq]
  exact s.setPc_effect _

/-- Settles O28: JMP's row fixes the opcode only, so bits[11:9] and [5:0] are free (92 D7). -/
theorem jumpGoesToTheBaseRegister : Obligations.JumpGoesToTheBaseRegister :=
  ⟨fun _ row => decode_eq_of_row (.jmp .r0) row, rfl, fun b s => ⟨_, exec_jmp b s, s.setPc_effect _⟩⟩

/-- Settles O29: the row gives the offset, the link and the write of PC the rest. -/
theorem jsrLinksAndGoesToItsTarget : Obligations.JsrLinksAndGoesToItsTarget :=
  ⟨fun _ row => decode_eq_of_row (.jsr 0#11) row, fun o s => ⟨_, exec_jsr o s, s.link_setPc_effect _⟩⟩

/-- Settles O30: JSRR's row fixes the opcode and bit 11 only (92 D7), and the base register is read behind the link. -/
theorem jsrrLinksAndGoesToTheBaseRegister : Obligations.JsrrLinksAndGoesToTheBaseRegister :=
  ⟨fun _ row => decode_eq_of_row (.jsrr .r0) row, fun b s => ⟨_, exec_jsrr b s, s.link_setPc_effect _⟩⟩

/-! ### BR's decision table -/

/-- R150: where COND has one bit set, BR is taken exactly if its own bit of the same number is set. -/
theorem branchTaken_twoPow (cond : BitVec 3) {k : Nat} (flag : k < 16) :
    branchTaken cond (BitVec.twoPow 16 k) = cond.getLsbD k := by
  have bit : (cond.setWidth 16).getLsbD k = cond.getLsbD k := by simp [flag]
  have nonzero : BitVec.twoPow 16 k ≠ 0#16 := fun zero => by
    have one := congrArg (·.getLsbD k) zero
    simp [flag] at one
  rw [branchTaken, BitVec.and_twoPow, bit]
  cases cond.getLsbD k with
  | true => simpa using nonzero
  | false => simp

/-- R151: bit 0 of cond, p, asks for POS. -/
theorem branchTaken_condPos (cond : BitVec 3) : branchTaken cond condPos = cond.getLsbD 0 :=
  branchTaken_twoPow cond (k := 0) (by omega)

/-- R151: bit 1 of cond, z, asks for ZRO. -/
theorem branchTaken_condZro (cond : BitVec 3) : branchTaken cond condZro = cond.getLsbD 1 :=
  branchTaken_twoPow cond (k := 1) (by omega)

/-- R151: bit 2 of cond, n, asks for NEG. -/
theorem branchTaken_condNeg (cond : BitVec 3) : branchTaken cond condNeg = cond.getLsbD 2 :=
  branchTaken_twoPow cond (k := 2) (by omega)

/-- R105: the bits of a cond field with flags n, z and p. -/
theorem getLsbD_nzp : ∀ n z p : Bool,
    (BitVec.ofBool n ++ BitVec.ofBool z ++ BitVec.ofBool p).getLsbD 2 = n ∧
    (BitVec.ofBool n ++ BitVec.ofBool z ++ BitVec.ofBool p).getLsbD 1 = z ∧
    (BitVec.ofBool n ++ BitVec.ofBool z ++ BitVec.ofBool p).getLsbD 0 = p := by decide

/-- R151: the decision table. In the case of each flag the other two rows are out, and its own row asks for its bit. -/
theorem branchTaken_iff (n z p : Bool) {flags : Word} (legal : condLegal flags) :
    branchTaken (BitVec.ofBool n ++ BitVec.ofBool z ++ BitVec.ofBool p) flags ↔
      (n ∧ flags = condNeg) ∨ (z ∧ flags = condZro) ∨ (p ∧ flags = condPos) := by
  obtain ⟨negBit, zroBit, posBit⟩ := getLsbD_nzp n z p
  rcases legal with rfl | rfl | rfl
  · rw [branchTaken_condPos, posBit]
    simp [condNeg, condZro, condPos]
  · rw [branchTaken_condZro, zroBit]
    simp [condNeg, condZro, condPos]
  · rw [branchTaken_condNeg, negBit]
    simp [condNeg, condZro, condPos]

/-- Settles O27: BR's target depends on `branchTaken` alone, whose table is `branchTaken_iff`. -/
theorem branchDecisionTable : Obligations.BranchDecisionTable := by
  intro n z p o s t legal answer
  rw [exec_br] at answer
  cases answer
  simp only [State.setPc_pc, branchTaken_iff n z p legal]

end Sys2Proof.Machine

/-! PROOFS. The loads LD, LDI and LDR, and LEA (R170 to R173): each decodes by its row of the opcode table and is one
flag-setting register write. What distinguishes the four is the word written, which is read from the state before the
write. -/

namespace Sys2Proof.Machine

open Sys2Proof

/-! ### What each instruction answers -/

/-- R170: LD writes the word at the post-fetch PC plus its offset. -/
theorem exec_ld (dr : Reg) (o : BitVec 9) (s : State) :
    exec (.ld dr o) s = .next (s.writeRegFlags dr (s.load (s.pc + sext o))) := rfl

/-- R171: LDI reads memory twice, first the pointer and then the word it points to. -/
theorem exec_ldi (dr : Reg) (o : BitVec 9) (s : State) :
    exec (.ldi dr o) s = .next (s.writeRegFlags dr (s.load (s.load (s.pc + sext o)))) := rfl

/-- R172: LDR forms its address before the write, so DR = BaseR is no special case. -/
theorem exec_ldr (dr b : Reg) (o : BitVec 6) (s : State) :
    exec (.ldr dr b o) s = .next (s.writeRegFlags dr (s.load (s.reg b + sext o))) := rfl

/-- R173: LEA writes the address itself and reads no memory. -/
theorem exec_lea (dr : Reg) (o : BitVec 9) (s : State) :
    exec (.lea dr o) s = .next (s.writeRegFlags dr (s.pc + sext o)) := rfl

/-! ### Encoding, loaded word, flags and frame -/

/-- Settles O32: the row gives the fields and the register write of the loaded word gives the rest. The operands of the
row's instruction are immaterial, here and below, since a row's masks do not depend on them. -/
theorem ldLoadsTheWord : Obligations.LdLoadsTheWord :=
  ⟨fun _ row => decode_eq_of_row (.ld .r0 0#9) row, fun dr o s => exists_effect_of_exec (exec_ld dr o s)⟩

/-- Settles O33: as LD, with the word read through the pointer. -/
theorem ldiLoadsThroughThePointer : Obligations.LdiLoadsThroughThePointer :=
  ⟨fun _ row => decode_eq_of_row (.ldi .r0 0#9) row, fun dr o s => exists_effect_of_exec (exec_ldi dr o s)⟩

/-- Settles O34: the row gives both registers and the offset, the register write of the loaded word the rest. -/
theorem ldrLoadsFromTheBase : Obligations.LdrLoadsFromTheBase :=
  ⟨fun _ row => decode_eq_of_row (.ldr .r0 .r0 0#6) row, fun dr b o s => exists_effect_of_exec (exec_ldr dr b o s)⟩

/-- Settles O35: the row gives the fields, the register write of the address the rest. -/
theorem leaWritesTheAddress : Obligations.LeaWritesTheAddress :=
  ⟨fun _ row => decode_eq_of_row (.lea .r0 0#9) row, fun dr o s => exists_effect_of_exec (exec_lea dr o s)⟩

end Sys2Proof.Machine

/-! PROOFS. The stores ST, STI and STR (R190 to R192): each decodes by its row of the opcode table and writes its
register at the address `storeAddress` gives, which is formed before the write. The effect of that write is said once. -/

namespace Sys2Proof.Machine

open Sys2Proof

/-! ### The effect of a store -/

/-- R72: on canonical memory a word write has the whole effect of a store. -/
theorem State.store_effect {s : State} (hm : s.mem.wf = true) (ea v : Word) : StoresWord s (s.store ea v) ea v where
  stored := (State.load_store hm ea v ea).trans (if_pos rfl)
  mem := fun _ notLow notHigh => Memory.readByte_write_other s.mem ea v notLow notHigh
  regs := fun q _ => s.store_reg ea v q
  flags := s.store_cond ea v
  pc := s.store_pc ea v
  console := ⟨s.store_out ea v, s.store_input ea v, s.store_routine ea v⟩
  run := s.store_run ea v

/-- R190 to R192: an instruction that stores `sr` answers a state with the effect of the store at its address. -/
theorem StoresRegister.exists_effect {i : Instr} {sr : Reg} {s : State} {ea : Word} (stores : StoresRegister i sr)
    (address : storeAddress i s = some ea) (hm : s.mem.wf = true) :
    ∃ t, exec i s = .next t ∧ StoresWord s t ea (s.reg sr) :=
  ⟨_, stores.exec_eq address, State.store_effect hm ea (s.reg sr)⟩

/-! ### Encoding, stored word and frame -/

/-- Settles O36: the row gives the fields and the store at the PC-relative address gives the rest. The operands of the
row's instruction are immaterial, here and below, since a row's masks do not depend on them. -/
theorem stStoresTheRegister : Obligations.StStoresTheRegister :=
  ⟨fun _ row => decode_eq_of_row (.st .r0 0#9) row,
   fun _ o _ hm => StoresRegister.exists_effect (.inl ⟨o, rfl⟩) rfl hm⟩

/-- Settles O37: as ST, at the pointer read from the state before the write, so a pointer to itself is no special
case. -/
theorem stiStoresThroughThePointer : Obligations.StiStoresThroughThePointer :=
  ⟨fun _ row => decode_eq_of_row (.sti .r0 0#9) row,
   fun _ o _ hm => StoresRegister.exists_effect (.inr (.inl ⟨o, rfl⟩)) rfl hm⟩

/-- Settles O38: the row gives both registers and the offset, the store at the base plus offset the rest. -/
theorem strStoresAtTheBase : Obligations.StrStoresAtTheBase :=
  ⟨fun _ row => decode_eq_of_row (.str .r0 .r0 0#6) row,
   fun _ b o _ hm => StoresRegister.exists_effect (.inr (.inr ⟨b, o, rfl⟩)) rfl hm⟩

end Sys2Proof.Machine

/-! PROOFS. TRAP and its service routines (R210 to R224). GETC and IN are one console read, whose prompt and echo GETC
leaves empty; PUTS and PUTSP are one walk over a string, with different bytes to the word. Each pair is described once,
by `ReadService` and `StringService`, and the statements follow for both members. -/

namespace Sys2Proof.Machine

open Sys2Proof

/-! ### Vectors -/

/-- R211: only vector 0x25 selects HALT. -/
theorem serviceOf_eq_halt {v : BitVec 8} : serviceOf v = some .halt ↔ v = 0x25#8 := by
  refine ⟨fun selects => ?_, fun isHalt => isHalt ▸ rfl⟩
  rcases serviceOf_cases v with ⟨rfl, e⟩ | ⟨rfl, e⟩ | ⟨rfl, e⟩ | ⟨rfl, e⟩ | ⟨rfl, e⟩ | ⟨rfl, e⟩ | ⟨-, e⟩ <;>
    rw [e] at selects <;> cases selects

/-- R211: the vectors outside 0x20 to 0x25 are those that select no service. -/
theorem serviceOf_eq_none {v : BitVec 8} : serviceOf v = none ↔ v.toNat < 0x20 ∨ 0x25 < v.toNat := by
  rcases serviceOf_cases v with
    ⟨rfl, e⟩ | ⟨rfl, e⟩ | ⟨rfl, e⟩ | ⟨rfl, e⟩ | ⟨rfl, e⟩ | ⟨rfl, e⟩ | ⟨outside, e⟩ <;>
    simp [*]

/-! ### What every TRAP leaves unchanged -/

/-- R224: no service writes a register but R0. -/
theorem ServiceEffect.reg {sv : Service} {u t : State} (h : ServiceEffect sv u t) {q : Reg} (other : q ≠ .r0) :
    t.reg q = u.reg q := by
  cases h with
  | answered w echo rest => simp [other]
  | waits | writes | ends => rfl

/-- R224: no service of `ServiceEffect` ends the run. -/
theorem ServiceEffect.run {sv : Service} {u t : State} (h : ServiceEffect sv u t) : t.run = u.run := by
  cases h <;> rfl

/-- R224: a service that reads no console leaves R0 and the host's answers. -/
theorem ServiceEffect.of_not_reads {sv : Service} {u t : State} (h : ServiceEffect sv u t) (noRead : sv.reads = false) :
    t.reg .r0 = u.reg .r0 ∧ t.input = u.input := by
  cases h with
  | answered w echo rest reads => rw [noRead] at reads; cases reads
  | waits | writes | ends => exact ⟨rfl, rfl⟩

/-- R210: a state that differs from the link's only in R0, COND, the console and the run state has TRAP's frame. -/
theorem TrapFrame.of_link {s t : State} (regs : ∀ q, q ≠ .r0 → t.reg q = s.link.reg q) (pc : t.pc = s.link.pc)
    (mem : t.mem = s.link.mem) : TrapFrame s t where
  link := by simp [regs]
  regs := fun q other => by
    obtain ⟨notR0, notR7⟩ : q ≠ .r0 ∧ q ≠ .r7 := by simpa using other
    simp [regs q notR0, notR7]
  pc := by simp [pc]
  mem := fun k => by simp [mem]

/-- R210, R222, R223: everything TRAP can do: run a service that leaves the run state, halt, or take the fatal error. -/
theorem exec_trap_cases {v : BitVec 8} {s t : State} (answer : exec (.trap v) s = .next t) :
    (∃ sv, serviceOf v = some sv ∧ ServiceEffect sv s.link t) ∨
    (serviceOf v = some .halt ∧ t = (s.link.consoleWrite Config.haltNotice).halt) ∨
    (serviceOf v = none ∧ t = s.link.raise (.unknownTrapVector s.instrAddr v)) := by
  have dispatch : execTrap v s = .next t := answer
  unfold execTrap at dispatch
  cases selects : serviceOf v with
  | none => rw [selects] at dispatch; cases dispatch; exact .inr (.inr ⟨rfl, rfl⟩)
  | some sv =>
    rw [selects] at dispatch
    cases sv with
    | getc => cases dispatch; exact .inl ⟨_, rfl, .of_getc _⟩
    | out => cases dispatch; exact .inl ⟨_, rfl, .writes _ rfl⟩
    | puts => cases dispatch; exact .inl ⟨_, rfl, .of_puts _⟩
    | inp => cases dispatch; exact .inl ⟨_, rfl, .of_in _⟩
    | putsp => cases dispatch; exact .inl ⟨_, rfl, .of_putsp _⟩
    | halt => cases dispatch; exact .inr (.inl ⟨rfl, rfl⟩)

/-- R224: TRAP's frame, for every vector. -/
theorem TrapFrame.of_exec {v : BitVec 8} {s t : State} (answer : exec (.trap v) s = .next t) : TrapFrame s t := by
  rcases exec_trap_cases answer with ⟨sv, -, effect⟩ | ⟨-, rfl⟩ | ⟨-, rfl⟩
  · exact .of_link (fun _ => effect.reg) effect.pc effect.mem
  · exact .of_link (fun _ _ => rfl) rfl rfl
  · exact .of_link (fun _ _ => rfl) rfl rfl

/-- R224: only GETC and IN write R0 or COND or take an answer of the host. -/
theorem exec_trap_unread {v : BitVec 8} {s t : State} (answer : exec (.trap v) s = .next t) (notGetc : v ≠ 0x20#8)
    (notIn : v ≠ 0x23#8) : t.reg .r0 = s.reg .r0 ∧ t.cond = s.cond ∧ t.input = s.input := by
  rcases exec_trap_cases answer with ⟨sv, selects, effect⟩ | ⟨-, rfl⟩ | ⟨-, rfl⟩
  · have noRead : sv.reads = false := by
      have noFlags := flagRegister_trap selects
      simpa [flagRegister, notGetc, notIn] using noFlags
    obtain ⟨r0, input⟩ := effect.of_not_reads noRead
    exact ⟨by simp [r0], effect.cond_of_not_reads noRead, input⟩
  · simp
  · simp

/-- R224: of the defined vectors only HALT's writes the run state. -/
theorem exec_trap_run {v : BitVec 8} {s t : State} (answer : exec (.trap v) s = .next t) (low : 0x20 ≤ v.toNat)
    (high : v.toNat < 0x25) : t.run = s.run := by
  rcases exec_trap_cases answer with ⟨sv, -, effect⟩ | ⟨isHalt, -⟩ | ⟨unknown, -⟩
  · exact effect.run
  · rw [serviceOf_eq_halt.mp isHalt] at high
    exact absurd high (by decide)
  · have outside := serviceOf_eq_none.mp unknown
    omega

/-! ### HALT and the unknown vectors -/

/-- R222: TRAP HALT writes the link and the notice and ends the run. -/
theorem exec_trap_halt (s : State) :
    exec (.trap 0x25#8) s = .next ((s.link.consoleWrite Config.haltNotice).setRun .halted) := rfl

/-- R223: a vector that selects no service writes the link and takes the fatal error. -/
theorem exec_trap_unknown {v : BitVec 8} (outside : v.toNat < 0x20 ∨ 0x25 < v.toNat) (s : State) :
    exec (.trap v) s = .next (s.link.setRun (.faulted (.unknownTrapVector (s.pc - 1#16) v))) := by
  have dispatch : exec (.trap v) s = execTrap v s := rfl
  rw [dispatch, execTrap, serviceOf_eq_none.mpr outside]
  rfl

/-- Settles O49: the notice and the run state are all that HALT adds to the link. -/
theorem haltEndsTheRun : Obligations.HaltEndsTheRun := fun s =>
  ⟨_, exec_trap_halt s, .of_exec (exec_trap_halt s), rfl, rfl, by simp⟩

/-- Settles O50: the fault record is all that the unknown vector adds to the link. -/
theorem unknownVectorsFault : Obligations.UnknownVectorsFault := fun _ s outside =>
  ⟨_, exec_trap_unknown outside s, rfl, .of_exec (exec_trap_unknown outside s), by simp [ConsoleSame]⟩

/-- R222: of all instructions only TRAP HALT ends the run Halted. -/
theorem exec_run_halted_iff {i : Instr} {s t : State} (running : s.run = .running) (answer : exec i s = .next t) :
    t.run = .halted ↔ i = .trap 0x25#8 := by
  constructor
  · intro halted
    cases Effect.of_exec answer with
    | halts selects => rw [serviceOf_eq_halt.mp selects]
    | serves selects effect => simp [effect.run, running] at halted
    | writesReg | stores | jumps | calls => simp [State.writeRegFlags_eq, running] at halted
    | rti | res | unknown => cases halted
  · rintro rfl
    cases answer
    rfl

/-- Settles O55: a running machine's step runs the fetched instruction, or goes on with a routine, which leaves the run
state. -/
theorem onlyTrapHaltHalts : Obligations.OnlyTrapHaltHalts := by
  intro s t running answer
  rcases step_cases s with ⟨-, idle, e⟩ | ⟨r, -, inProgress, -⟩ | ⟨ended, -⟩
  · have instruction := exec_run_halted_iff (s := s.advancePc) running (e ▸ answer)
    simpa only [idle, true_and] using instruction
  · have same : t.run = s.run := (ServiceEffect.of_step running inProgress answer).run
    simp [same, running, inProgress]
  · exact absurd running ended

/-! ### The services that only write bytes -/

/-- R215, R216, R220: a TRAP that writes the link and then bytes changes nothing else. -/
theorem exists_output_of_exec {v : BitVec 8} {s : State} {bs : List Byte}
    (answer : exec (.trap v) s = .next (s.link.consoleWrite bs)) :
    ∃ t, exec (.trap v) s = .next t ∧ TrapFrame s t ∧ t.out = s.out ++ bs ∧ t.reg .r0 = s.reg .r0 ∧
      t.cond = s.cond ∧ t.input = s.input ∧ t.routine = s.routine ∧ t.run = s.run :=
  ⟨_, answer, .of_exec answer, by simp⟩

/-- R215: OUT writes the link and the low byte of R0, which the link leaves. -/
theorem exec_trap_out (s : State) :
    exec (.trap 0x21#8) s = .next (s.link.consoleWrite [(s.reg .r0).extractLsb' 0 8]) := rfl

/-- Settles O41: OUT only writes a byte. -/
theorem outWritesTheLowByte : Obligations.OutWritesTheLowByte := fun s => exists_output_of_exec (exec_trap_out s)

/-! ### GETC and IN -/

/-- R212, R217: the step of a running machine goes on with the routine in progress. -/
theorem step_setRoutine {u : State} (running : u.run = .running) (r : Routine) :
    step (u.setRoutine (some r)) = .next ((u.setRoutine (some r)).resume r) := by
  simp only [step, State.setRoutine_run, running, State.setRoutine_routine]

/-- Noting a routine and writing to the console do not interfere. -/
theorem State.setRoutine_consoleWrite (u : State) (r : Option Routine) (bs : List Byte) :
    (u.setRoutine r).consoleWrite bs = (u.consoleWrite bs).setRoutine r := rfl

/-- R213, R218: the state after a console read has its answer: R0 and COND take it, the echo is written and `rest` is
the input left. -/
def State.afterRead (u : State) (answer : Option Byte) (rest : ConsoleInput) (echo : List Byte) : State :=
  ((((u.setInput rest).writeReg .r0 (answerWord answer)).consoleWrite echo).setCond
    (setcc (answerWord answer))).setRoutine none

/-- R212: what a read leaves does not depend on whether it waited. -/
@[simp] theorem State.afterRead_setRoutine (u : State) (r : Option Routine) (answer : Option Byte)
    (rest : ConsoleInput) (echo : List Byte) :
    (u.setRoutine r).afterRead answer rest echo = u.afterRead answer rest echo := rfl

/-- R212: what a read leaves does not depend on the input before the answer. -/
@[simp] theorem State.afterRead_setInput (u : State) (c : ConsoleInput) (answer : Option Byte)
    (rest : ConsoleInput) (echo : List Byte) :
    (u.setInput c).afterRead answer rest echo = u.afterRead answer rest echo := rfl

/-- R218: bytes written before a read stand before its echo. -/
theorem State.afterRead_consoleWrite (u : State) (bs : List Byte) (answer : Option Byte)
    (rest : ConsoleInput) (echo : List Byte) :
    (u.consoleWrite bs).afterRead answer rest echo = u.afterRead answer rest (bs ++ echo) := by
  simp only [State.afterRead, ← State.consoleWrite_consoleWrite]
  rfl

/-- R47: an input without an answer is silent. -/
theorem ConsoleInput.eq_silent_of_next {c : ConsoleInput} (unanswered : c.next = none) : c = ⟨[], .silent⟩ := by
  rcases c.next_cases with ⟨b, rest, -, e⟩ | ⟨-, e⟩ | ⟨silent, -⟩
  · rw [e] at unanswered; cases unanswered
  · rw [e] at unanswered; cases unanswered
  · exact silent

/-- R47: an input that answers has a next answer. -/
theorem ConsoleInput.answers.exists_next {c : ConsoleInput} (answers : c.answers) :
    ∃ answer rest, c.next = some (answer, rest) := by
  cases next : c.next with
  | none => exact absurd (ConsoleInput.eq_silent_of_next next ▸ answers) ConsoleInput.not_answers_silent
  | some p => exact ⟨p.1, p.2, rfl⟩

/-- R212, R213, R218: vector `v` selects the console read `r`, which writes `prompt` before the read and `echo` of the
answer after it. -/
structure ReadService (v : BitVec 8) (r : Routine) (prompt : List Byte) (echo : Option Byte → List Byte) : Prop where
  exec_of_next : ∀ {s : State} {answer : Option Byte} {rest : ConsoleInput}, s.input.next = some (answer, rest) →
    exec (.trap v) s = .next (s.link.afterRead answer rest (prompt ++ echo answer))
  exec_of_silent : ∀ {s : State}, s.input = ⟨[], .silent⟩ →
    exec (.trap v) s = .next ((s.link.consoleWrite prompt).setRoutine (some r))
  step_of_next : ∀ {u : State} {answer : Option Byte} {rest : ConsoleInput}, u.run = .running →
    u.input.next = some (answer, rest) → step (u.setRoutine (some r)) = .next (u.afterRead answer rest (echo answer))
  step_of_silent : ∀ {u : State}, u.run = .running → u.input = ⟨[], .silent⟩ →
    step (u.setRoutine (some r)) = .next (u.setRoutine (some r))

/-- R213: GETC with an answer. -/
theorem State.serviceGetc_of_next {u : State} {answer : Option Byte} {rest : ConsoleInput}
    (next : u.input.next = some (answer, rest)) : u.serviceGetc = u.afterRead answer rest [] := by
  simp [State.serviceGetc, State.consoleRead, next, State.writeRegFlags_eq, State.afterRead]

/-- R212: GETC without an answer. -/
theorem State.serviceGetc_of_silent {u : State} (silent : u.input = ⟨[], .silent⟩) :
    u.serviceGetc = u.setRoutine (some .getc) := by
  simp [State.serviceGetc, State.consoleRead, silent, ConsoleInput.next]

/-- R218, R219: IN with an answer, from its console read on. -/
theorem State.serviceInRead_of_next {u : State} {answer : Option Byte} {rest : ConsoleInput}
    (next : u.input.next = some (answer, rest)) :
    u.serviceInRead = u.afterRead answer rest [answer.getD 0#8] := by
  simp [State.serviceInRead, State.consoleRead, next, State.afterRead, lowByte_answerWord]

/-- R212: IN without an answer, from its console read on. -/
theorem State.serviceInRead_of_silent {u : State} (silent : u.input = ⟨[], .silent⟩) :
    u.serviceInRead = u.setRoutine (some .inp) := by
  simp [State.serviceInRead, State.consoleRead, silent, ConsoleInput.next]

/-- R213: TRAP GETC runs GETC after the link. -/
theorem exec_trap_getc (s : State) : exec (.trap 0x20#8) s = .next s.link.serviceGetc := rfl

/-- R218: TRAP IN writes the prompt after the link and then reads. -/
theorem exec_trap_in (s : State) :
    exec (.trap 0x23#8) s = .next (s.link.consoleWrite Config.inPrompt).serviceInRead := rfl

/-- R213: GETC reads without a prompt or an echo. -/
theorem getc_readService : ReadService 0x20#8 .getc [] fun _ => [] where
  exec_of_next {s _ _} next := by rw [exec_trap_getc, State.serviceGetc_of_next (u := s.link) next, List.nil_append]
  exec_of_silent {s} silent := by
    rw [exec_trap_getc, State.serviceGetc_of_silent (u := s.link) silent, State.consoleWrite_nil]
  step_of_next {u _ _} running next := by
    rw [step_setRoutine running, State.resume, State.serviceGetc_of_next (u := u.setRoutine (some .getc)) next,
      State.afterRead_setRoutine]
  step_of_silent {u} running silent := by
    rw [step_setRoutine running, State.resume, State.serviceGetc_of_silent (u := u.setRoutine (some .getc)) silent,
      State.setRoutine_setRoutine]

/-- R218, R219: IN reads between its prompt and the echo of the stored byte. -/
theorem in_readService : ReadService 0x23#8 .inp Config.inPrompt fun answer => [answer.getD 0#8] where
  exec_of_next {s _ _} next := by
    rw [exec_trap_in, State.serviceInRead_of_next (u := s.link.consoleWrite Config.inPrompt) next,
      State.afterRead_consoleWrite]
  exec_of_silent {s} silent := by
    rw [exec_trap_in, State.serviceInRead_of_silent (u := s.link.consoleWrite Config.inPrompt) silent]
  step_of_next {u _ _} running next := by
    rw [step_setRoutine running, State.resume, State.serviceInRead_of_next (u := u.setRoutine (some .inp)) next,
      State.afterRead_setRoutine]
  step_of_silent {u} running silent := by
    rw [step_setRoutine running, State.resume, State.serviceInRead_of_silent (u := u.setRoutine (some .inp)) silent,
      State.setRoutine_setRoutine]

section
variable {v : BitVec 8} {r : Routine} {prompt : List Byte} {echo : Option Byte → List Byte}

/-- R213, R214, R218, R219: everything a console read with an answer leaves. -/
theorem ReadService.exists_answered (service : ReadService v r prompt echo) {s : State} {answer : Option Byte}
    {rest : ConsoleInput} (next : s.input.next = some (answer, rest)) :
    ∃ t, exec (.trap v) s = .next t ∧ TrapFrame s t ∧ t.reg .r0 = answerWord answer ∧
      t.cond = (if answer.getD 0#8 = 0#8 then condZro else condPos) ∧ t.out = s.out ++ (prompt ++ echo answer) ∧
      t.input = rest ∧ t.routine = none ∧ t.run = s.run :=
  ⟨_, service.exec_of_next next, .of_exec (service.exec_of_next next),
    by simp [State.afterRead, ← setcc_answerWord]⟩

/-- R47, R212: after a console read the answers to come are those before it without the first, and where there is none
yet they stay as they are. -/
theorem ReadService.answerAt (service : ReadService v r prompt echo) {s t : State}
    (answer : exec (.trap v) s = .next t) (k : Nat) : t.input.answerAt k = s.input.answerAt (k + 1) := by
  cases next : s.input.next with
  | none =>
    have silent := ConsoleInput.eq_silent_of_next next
    rw [service.exec_of_silent silent] at answer
    cases answer
    simp [silent, ConsoleInput.answerAt]
  | some p =>
    obtain ⟨taken, rest⟩ := p
    rw [service.exec_of_next next] at answer
    cases answer
    exact (ConsoleInput.answerAt_next next).2 k

/-- R212: a waiting console read that gets its answer ends as the same TRAP with the answer there from the start. -/
theorem ReadService.step_answered (service : ReadService v r prompt echo) {s : State} {c : ConsoleInput}
    (running : s.run = .running) (answers : c.answers) :
    ∃ u, step (((s.link.consoleWrite prompt).setRoutine (some r)).setInput c) = .next u ∧
      exec (.trap v) (s.setInput c) = .next u ∧ u.routine = none := by
  obtain ⟨answer, rest, next⟩ := answers.exists_next
  refine ⟨_, ?_, service.exec_of_next (s := s.setInput c) next, rfl⟩
  calc step (((s.link.consoleWrite prompt).setRoutine (some r)).setInput c)
      = .next (((s.link.consoleWrite prompt).setInput c).afterRead answer rest (echo answer)) :=
        service.step_of_next (u := (s.link.consoleWrite prompt).setInput c) running next
    _ = .next (s.link.afterRead answer rest (prompt ++ echo answer)) := by
        rw [State.afterRead_setInput, State.afterRead_consoleWrite]

/-- R212: a console read without an answer waits, with R7 linked and the prompt written, and ends as if answered at
once. -/
theorem ReadService.waits (service : ReadService v r prompt echo) {s : State} {c : ConsoleInput}
    (running : s.run = .running) (silent : s.input = ⟨[], .silent⟩) (answers : c.answers) :
    ∃ t u, exec (.trap v) s = .next t ∧ TrapFrame s t ∧ t.reg .r0 = s.reg .r0 ∧ t.cond = s.cond ∧
      t.out = s.out ++ prompt ∧ t.run = .running ∧
      step t = .next t ∧ step (t.setInput c) = .next u ∧ exec (.trap v) (s.setInput c) = .next u ∧
      u.routine = none := by
  have begun := service.exec_of_silent silent
  obtain ⟨u, resumed, atOnce, ended⟩ := service.step_answered running answers
  exact ⟨_, u, begun, .of_exec begun, by simp, rfl, rfl, running, service.step_of_silent running silent, resumed,
    atOnce, ended⟩

end

/-- Settles O40: GETC is the console read without prompt and echo. -/
theorem getcReadsOneByte : Obligations.GetcReadsOneByte := by
  refine fun s => ⟨fun b rest gives => ?_, fun ended => ?_, fun t => getc_readService.answerAt⟩
  · simpa [answerWord, zext16] using getc_readService.exists_answered (ConsoleInput.next_eq_of_gives gives)
  · have next : s.input.next = some (none, s.input) := by rw [ended]; rfl
    simpa [answerWord] using getc_readService.exists_answered next

/-- Settles O46: IN is the console read with `IN_PROMPT` before it and the stored byte after it. -/
theorem inPromptsReadsAndEchoes : Obligations.InPromptsReadsAndEchoes := by
  refine fun s => ⟨fun b rest gives => ?_, fun ended => ?_, fun t => in_readService.answerAt⟩
  · simpa [answerWord, zext16] using in_readService.exists_answered (ConsoleInput.next_eq_of_gives gives)
  · have next : s.input.next = some (none, s.input) := by rw [ended]; rfl
    simpa [answerWord] using in_readService.exists_answered next

/-- Settles O47: both console reads wait alike, GETC with an empty prompt. -/
theorem waitingReadsEndAsIfAnsweredAtOnce : Obligations.WaitingReadsEndAsIfAnsweredAtOnce := by
  rintro s v c ⟨running, -⟩ (rfl | rfl) silent answers
  · simpa using getc_readService.waits running silent answers
  · simpa using in_readService.waits running silent answers

/-! ### PUTS and PUTSP -/

/-- R216: a walk that ends has met words that are not zero and then a zero word. -/
theorem State.loads_of_stringAt {s : State} {a : Word} {ws : List Word}
    (walk : s.mem.stringAt Config.memoryWords a = some ws) :
    (∀ j, j < ws.length → s.load (a + BitVec.ofNat 16 j) ≠ 0x0000#16) ∧
      s.load (a + BitVec.ofNat 16 ws.length) = 0x0000#16 := by
  obtain ⟨-, zero, words, nonzero⟩ := Memory.stringAt_eq_some walk
  refine ⟨fun j before => nonzero _ ?_, zero⟩
  rw [words]
  exact List.mem_map.mpr ⟨j, List.mem_range.mpr before, rfl⟩

/-- R216, R217: the walk over the whole memory finds a zero word wherever there is one. -/
theorem State.stringAt_eq_none_iff {s : State} {a : Word} :
    s.mem.stringAt Config.memoryWords a = none ↔ ∀ b, s.load b ≠ 0x0000#16 := by
  refine ⟨State.load_ne_zero_of_stringAt, fun nonzero => ?_⟩
  cases walk : s.mem.stringAt Config.memoryWords a with
  | none => rfl
  | some ws => exact absurd (State.loads_of_stringAt walk).2 (nonzero _)

/-- R216: the walk gives the words before the first zero word, whatever their number. -/
theorem State.stringAt_of_first_zero {s : State} {a : Word} {n : Nat}
    (before : ∀ j, j < n → s.load (a + BitVec.ofNat 16 j) ≠ 0x0000#16)
    (zero : s.load (a + BitVec.ofNat 16 n) = 0x0000#16) :
    s.mem.stringAt Config.memoryWords a = some ((List.range n).map fun j => s.load (a + BitVec.ofNat 16 j)) := by
  cases walk : s.mem.stringAt Config.memoryWords a with
  | none => exact absurd zero (State.stringAt_eq_none_iff.mp walk _)
  | some ws =>
    obtain ⟨walkBefore, walkZero⟩ := State.loads_of_stringAt walk
    have notShorter : ¬ ws.length < n := fun shorter => before _ shorter walkZero
    have notLonger : ¬ n < ws.length := fun longer => walkBefore _ longer zero
    have length : ws.length = n := by omega
    obtain ⟨-, -, words, -⟩ := Memory.stringAt_eq_some walk
    rw [words, length]
    rfl

/-- R216, R217, R220: vector `v` selects the walk over a string that writes `bytes` for each word and is `routine a`
while it is about to read MEM[a]. -/
structure StringService (v : BitVec 8) (routine : Word → Routine) (bytes : Word → List Byte) : Prop where
  exec_of_some : ∀ {s : State} {ws : List Word}, s.mem.stringAt Config.memoryWords (s.reg .r0) = some ws →
    exec (.trap v) s = .next (s.link.consoleWrite (ws.flatMap bytes))
  exec_of_none : ∀ {s : State}, s.mem.stringAt Config.memoryWords (s.reg .r0) = none →
    exec (.trap v) s = .next (s.link.setRoutine (some (routine (s.reg .r0))))
  step_of_zero : ∀ {u : State} {a : Word}, u.run = .running → u.load a = 0x0000#16 →
    step (u.setRoutine (some (routine a))) = .next (u.setRoutine none)
  step_of_nonzero : ∀ {u : State} {a : Word}, u.run = .running → u.load a ≠ 0x0000#16 →
    step (u.setRoutine (some (routine a))) =
      .next ((u.consoleWrite (bytes (u.load a))).setRoutine (some (routine (a + 1#16))))

/-- R216: TRAP PUTS runs PUTS after the link. -/
theorem exec_trap_puts (s : State) : exec (.trap 0x22#8) s = .next s.link.servicePuts := rfl

/-- R220: TRAP PUTSP runs PUTSP after the link. -/
theorem exec_trap_putsp (s : State) : exec (.trap 0x24#8) s = .next s.link.servicePutsp := rfl

/-- R216, R217: PUTS writes one byte to the word. -/
theorem puts_stringService : StringService 0x22#8 .puts putsBytes where
  exec_of_some walk := by simp [exec_trap_puts, State.servicePuts, walk]
  exec_of_none walk := by simp [exec_trap_puts, State.servicePuts, walk]
  step_of_zero running zero := by simp [step_setRoutine running, State.resume, State.putsTurn, zero]
  step_of_nonzero running nonzero := by
    simp [step_setRoutine running, State.resume, State.putsTurn, nonzero, State.setRoutine_consoleWrite]

/-- R217, R220: PUTSP writes one byte or two to the word. -/
theorem putsp_stringService : StringService 0x24#8 .putsp putspBytes where
  exec_of_some walk := by simp [exec_trap_putsp, State.servicePutsp, walk]
  exec_of_none walk := by simp [exec_trap_putsp, State.servicePutsp, walk]
  step_of_zero running zero := by simp [step_setRoutine running, State.resume, State.putspTurn, zero]
  step_of_nonzero running nonzero := by
    simp [step_setRoutine running, State.resume, State.putspTurn, nonzero, State.setRoutine_consoleWrite]

/-- The bytes that a string routine writes for the first `k` words from `a`, in wrapping address order. -/
def State.stringBytes (s : State) (bytes : Word → List Byte) (a : Word) (k : Nat) : List Byte :=
  (List.range k).flatMap fun j => bytes (s.load (a + BitVec.ofNat 16 j))

theorem State.stringBytes_succ (s : State) (bytes : Word → List Byte) (a : Word) (k : Nat) :
    s.stringBytes bytes a (k + 1) = s.stringBytes bytes a k ++ bytes (s.load (a + BitVec.ofNat 16 k)) := by
  simp [State.stringBytes, List.range_succ]

/-- The bytes of a string are those of the words of its walk. -/
theorem State.flatMap_words (s : State) (bytes : Word → List Byte) (a : Word) (k : Nat) :
    ((List.range k).map fun j => s.load (a + BitVec.ofNat 16 j)).flatMap bytes = s.stringBytes bytes a k :=
  List.flatMap_map ..

/-- R260: every step answers a next state. -/
theorem exists_step_eq_next (s : State) : ∃ t, step s = .next t := by
  rcases step_cases s with ⟨-, -, e⟩ | ⟨r, -, -, e⟩ | ⟨-, e⟩
  · obtain ⟨t, answer, -⟩ := exec_effect (decode s.fetchWord) s.advancePc
    exact ⟨t, e.trans answer⟩
  · exact ⟨_, e⟩
  · exact ⟨_, e⟩

/-- R301: a run of k + 1 steps is a run of k steps and then one step. -/
theorem run_succ_last {k : Nat} {s t u : State} (before : Sys2Proof.core.run k s = .next t) (last : step t = .next u) :
    Sys2Proof.core.run (k + 1) s = .next u := by
  induction k generalizing s with
  | zero =>
    cases before
    exact run_succ 0 last
  | succ k ih =>
    obtain ⟨s', first⟩ := exists_step_eq_next s
    rw [run_succ k first] at before
    rw [run_succ (k + 1) first]
    exact ih before

/-- A routine that is noted already needs no noting. -/
theorem State.setRoutine_of_eq {s : State} {r : Option Routine} (same : s.routine = r) : s.setRoutine r = s := by
  subst same
  rfl

section
variable {v : BitVec 8} {routine : Word → Routine} {bytes : Word → List Byte}

/-- R216, R220: where the first zero word is the n-th, the TRAP writes the bytes of the n words before it. -/
theorem StringService.exec_of_first_zero (service : StringService v routine bytes) {s : State} {n : Nat}
    (before : ∀ j, j < n → s.load (s.reg .r0 + BitVec.ofNat 16 j) ≠ 0x0000#16)
    (zero : s.load (s.reg .r0 + BitVec.ofNat 16 n) = 0x0000#16) :
    exec (.trap v) s = .next (s.link.consoleWrite (s.stringBytes bytes (s.reg .r0) n)) := by
  rw [service.exec_of_some (State.stringAt_of_first_zero before zero), State.flatMap_words]

/-- R217: the TRAP ends within its step exactly if there is a zero word. -/
theorem StringService.ends_iff (service : StringService v routine bytes) {s : State} (idle : s.routine = none) :
    (∃ t, exec (.trap v) s = .next t ∧ t.routine = none) ↔ ∃ a, s.load a = 0x0000#16 := by
  cases walk : s.mem.stringAt Config.memoryWords (s.reg .r0) with
  | none =>
    have nonzero : ¬ ∃ a, s.load a = 0x0000#16 := not_exists.mpr (State.stringAt_eq_none_iff.mp walk)
    simp [service.exec_of_none walk, nonzero]
  | some ws =>
    exact iff_of_true ⟨_, service.exec_of_some walk, idle⟩ ⟨_, (State.loads_of_stringAt walk).2⟩

/-- R216, R217: k turns of the loop write the bytes of k words that are not zero. -/
theorem StringService.run_turns (service : StringService v routine bytes) {u : State} (running : u.run = .running)
    (a : Word) {k : Nat} (nonzero : ∀ j, j < k → u.load (a + BitVec.ofNat 16 j) ≠ 0x0000#16) :
    Sys2Proof.core.run k (u.setRoutine (some (routine a))) =
      .next ((u.consoleWrite (u.stringBytes bytes a k)).setRoutine (some (routine (a + BitVec.ofNat 16 k)))) := by
  induction k with
  | zero => simp [Host.Core.run, State.stringBytes]
  | succ k ih =>
    refine run_succ_last (ih fun j hj => nonzero j (by omega)) ?_
    rw [service.step_of_nonzero (u := u.consoleWrite (u.stringBytes bytes a k)) running (nonzero k (by omega)),
      State.stringBytes_succ, BitVec.ofNat_add, ← BitVec.add_assoc, ← State.consoleWrite_consoleWrite]
    rfl

/-- R217: without a zero word, the TRAP and k further steps write the bytes of the first k words, and the machine goes
on running. -/
theorem StringService.run_endless (service : StringService v routine bytes) {s : State} (running : s.run = .running)
    (nonzero : ∀ a, s.load a ≠ 0x0000#16) (k : Nat) :
    ∃ t u, exec (.trap v) s = .next t ∧ Sys2Proof.core.run k t = .next u ∧ u.run = .running ∧
      u.out = s.out ++ s.stringBytes bytes (s.reg .r0) k :=
  ⟨_, _, service.exec_of_none (State.stringAt_eq_none_iff.mpr nonzero),
    service.run_turns (u := s.link) running (s.reg .r0) (fun _ _ => nonzero _), running, rfl⟩

/-- R216, R220: where the TRAP ends within its step, the loop reaches the same state after a turn for each word before
the zero word and one turn that finds it. -/
theorem StringService.run_loop (service : StringService v routine bytes) {s t : State} (ready : s.ready)
    (ended : t.routine = none) (answer : exec (.trap v) s = .next t) :
    ∃ k, Sys2Proof.core.run k (s.link.setRoutine (some (routine (s.reg .r0)))) = .next t := by
  obtain ⟨running, idle⟩ := ready
  cases walk : s.mem.stringAt Config.memoryWords (s.reg .r0) with
  | none =>
    rw [service.exec_of_none walk] at answer
    cases answer
    cases ended
  | some ws =>
    obtain ⟨before, zero⟩ := State.loads_of_stringAt walk
    rw [service.exec_of_first_zero before zero] at answer
    cases answer
    refine ⟨ws.length + 1, run_succ_last (service.run_turns (u := s.link) running (s.reg .r0) before) ?_⟩
    rw [service.step_of_zero (u := s.link.consoleWrite _) running zero,
      State.setRoutine_of_eq (s := s.link.consoleWrite _) idle]
    rfl

end

/-- R216: the bytes of PUTS are the low bytes of the words. -/
theorem State.stringBytes_puts (s : State) (a : Word) (n : Nat) :
    s.stringBytes putsBytes a n = (List.range n).map fun j => (s.load (a + BitVec.ofNat 16 j)).extractLsb' 0 8 :=
  List.map_eq_flatMap.symm

/-- R220: the bytes of PUTSP are the low byte of each word and its high byte if that is not zero. -/
theorem putspBytes_eq (w : Word) :
    putspBytes w = w.extractLsb' 0 8 :: if w.extractLsb' 8 8 = 0#8 then [] else [w.extractLsb' 8 8] :=
  (apply_ite (w.extractLsb' 0 8 :: ·) (w.extractLsb' 8 8 = 0#8) [] [w.extractLsb' 8 8]).symm

/-- Settles O42: PUTS only writes the bytes of the walk. -/
theorem putsWritesTheString : Obligations.PutsWritesTheString := by
  intro s n before zero
  rw [← State.stringBytes_puts]
  exact exists_output_of_exec (puts_stringService.exec_of_first_zero before zero)

/-- Settles O43: PUTSP only writes the bytes of the walk, a zero low byte among them (D14). -/
theorem putspWritesThePackedString : Obligations.PutspWritesThePackedString := by
  intro s n before zero
  simp only [← putspBytes_eq]
  exact exists_output_of_exec (putsp_stringService.exec_of_first_zero before zero)

/-- Settles O44: the walk ends iff it finds a zero word, and otherwise the turns never end. -/
theorem endlessStringsAreWrittenForEver : Obligations.EndlessStringsAreWrittenForEver := by
  rintro s ⟨running, idle⟩
  refine ⟨puts_stringService.ends_iff idle, putsp_stringService.ends_iff idle, fun nonzero k => ?_⟩
  obtain ⟨t, u, puts, turns, goesOn, out⟩ := puts_stringService.run_endless running nonzero k
  obtain ⟨t', u', putsp, turns', goesOn', out'⟩ := putsp_stringService.run_endless running nonzero k
  exact ⟨t, u, t', u', puts, turns, goesOn, out, putsp, turns', goesOn', out'⟩

/-- Settles O45: both services agree with their loops. -/
theorem stringServicesAgreeWithTheirLoops : Obligations.StringServicesAgreeWithTheirLoops := fun _ _ ready ended =>
  ⟨puts_stringService.run_loop ready ended, putsp_stringService.run_loop ready ended⟩

/-! ### What TRAP changes in total -/

/-- R213, R223: GETC and the vectors that are not defined write nothing to the console. -/
theorem exec_trap_out_same {v : BitVec 8} {s t : State} (answer : exec (.trap v) s = .next t)
    (quiet : v = 0x20#8 ∨ v.toNat < 0x20 ∨ 0x25 < v.toNat) : t.out = s.out := by
  rcases quiet with rfl | outside
  · rw [exec_trap_getc] at answer
    cases answer
    rcases s.link.serviceGetc_cases with ⟨b, rest, -, e⟩ | ⟨-, e⟩ | ⟨-, e⟩ <;> rw [e] <;> rfl
  · rw [exec_trap_unknown outside] at answer
    cases answer
    rfl

/-- Settles O39: the row fixes the opcode only (92 D7), and each clause is said of every vector above. -/
theorem trapChangesOnlyWhatItsRoutineMay : Obligations.TrapChangesOnlyWhatItsRoutineMay := by
  refine ⟨fun _ row => decode_eq_of_row (.trap 0#8) row, fun v s => ?_⟩
  obtain ⟨t, answer, -⟩ := exec_effect (.trap v) s
  exact ⟨t, answer, .of_exec answer, exec_trap_unread answer, exec_trap_out_same answer, exec_trap_run answer⟩

end Sys2Proof.Machine

/-! PROOFS. Fatal errors and waits (60_exceptions.md): which instructions enter Faulted and what that leaves (R260 to
R264), and the console reads that wait for ever (R276). -/

namespace Sys2Proof.Machine

open Sys2Proof

/-! ### Ill-formed instructions -/

/-- R119, R121: the instructions without a handler are RTI, RES and the TRAPs whose vector selects no service. -/
theorem wellFormed_eq_false_iff {i : Instr} :
    i.wellFormed = false ↔ (i = .rti ∨ i = .res) ∨ ∃ v, i = .trap v ∧ serviceOf v = none := by
  cases i with
  | trap v =>
    have outside : ¬ (0x20 ≤ v.toNat ∧ v.toNat ≤ 0x25) ↔ serviceOf v = none := by rw [serviceOf_eq_none]; omega
    simpa [Instr.wellFormed] using outside
  | rti | res => simp [Instr.wellFormed]
  | br | jmp | jsr | jsrr | addReg | addImm | andReg | andImm | not | ld | ldi | ldr | lea | st | sti | str =>
    simp [Instr.wellFormed]

/-- R111: the vector of a TRAP is the low byte of its word. -/
theorem trapvect8_of_decode_eq {w : Word} {v : BitVec 8} (trap : decode w = .trap v) : w.extractLsb' 0 8 = v := by
  have operands := decode_eq_of_row (decode w) (decode_matches_row w)
  rw [trap] at operands
  exact (Instr.trap.inj operands).symm

/-! ### Fault entry -/

/-- R262, R263: everything an instruction that enters Faulted can have done: RTI and RES only raise, with their opcode,
and a TRAP without a service raises after its link, with its vector. -/
theorem Effect.faulted_cases {i : Instr} {s t : State} {f : FaultRecord} (effect : Effect s i t)
    (running : s.run = .running) (faulted : t.run = .faulted f) :
    ((i = .rti ∨ i = .res) ∧ f = .illegalOpcode s.instrAddr (fieldOpcode i.rowMatch) ∧ t = s.raise f) ∨
    ∃ v, (i = .trap v ∧ serviceOf v = none) ∧ f = .unknownTrapVector s.instrAddr v ∧ t = s.link.raise f := by
  cases effect with
  | rti => cases faulted; exact .inl ⟨.inl rfl, rfl, rfl⟩
  | res => cases faulted; exact .inl ⟨.inr rfl, rfl, rfl⟩
  | unknown selects => cases faulted; exact .inr ⟨_, ⟨rfl, selects⟩, rfl, rfl⟩
  | serves selects effect => simp [effect.run, running] at faulted
  | halts => cases faulted
  | writesReg | stores | jumps | calls => simp [State.writeRegFlags_eq, running] at faulted

/-- R261: an instruction enters Faulted exactly if it has no handler. -/
theorem exec_faults_iff {i : Instr} {s t : State} (running : s.run = .running) (answer : exec i s = .next t) :
    (∃ f, t.run = .faulted f) ↔ i.wellFormed = false := by
  rw [wellFormed_eq_false_iff]
  constructor
  · rintro ⟨f, faulted⟩
    rcases (Effect.of_exec answer).faulted_cases running faulted with ⟨reserved, -⟩ | ⟨v, unknown, -⟩
    · exact .inl reserved
    · exact .inr ⟨v, unknown⟩
  · rintro ((rfl | rfl) | ⟨v, rfl, unknown⟩)
    · rw [exec_rti] at answer; cases answer; exact ⟨_, rfl⟩
    · rw [exec_res] at answer; cases answer; exact ⟨_, rfl⟩
    · rw [exec_trap_unknown (serviceOf_eq_none.mp unknown)] at answer; cases answer; exact ⟨_, rfl⟩

/-- Settles O52: a running machine's step runs the fetched instruction, or goes on with a routine, which leaves the run
state. -/
theorem faultsComeOnlyFromIllFormedInstructions : Obligations.FaultsComeOnlyFromIllFormedInstructions := by
  intro s t running answer
  rcases step_cases s with ⟨-, idle, e⟩ | ⟨r, -, inProgress, -⟩ | ⟨ended, -⟩
  · have instruction := exec_faults_iff (s := s.advancePc) running (e ▸ answer)
    simpa only [idle, true_and] using instruction
  · have same : t.run = s.run := (ServiceEffect.of_step running inProgress answer).run
    simp [same, running, inProgress]
  · exact absurd running ended

/-- Settles O53: the record's address is that of the fetch, since the fetch increment and R264's PC - 1 cancel, and its
opcode or vector is the fetched word's, since that word decodes to the instruction. -/
theorem faultEntryIsPrecise : Obligations.FaultEntryIsPrecise := by
  intro s t ready answer f faulted
  have address : s.advancePc.instrAddr = s.pc := by simp
  obtain ⟨-, -, outcome⟩ := outcomesMapToExitCodes.2 t
  obtain ⟨exitCode, diagnostic, -⟩ := outcome f faulted
  rcases (Effect.of_step ready answer).faulted_cases ready.left faulted with
    ⟨-, record, raised⟩ | ⟨v, ⟨trap, -⟩, record, raised⟩
  · rw [address, ← opcode_of_decode_eq rfl] at record
    obtain ⟨pc, regs, cond, mem, console⟩ := s.advancePc.raise_frame f
    rw [← raised] at pc regs cond mem console
    exact ⟨pc, cond, mem, console, diagnostic, exitCode, .inl ⟨record, regs⟩⟩
  · rw [address, ← trapvect8_of_decode_eq trap] at record
    obtain ⟨pc, -, cond, mem, console⟩ := s.advancePc.link.raise_frame f
    rw [← raised] at pc cond mem console
    refine ⟨pc, cond, mem, console, diagnostic, exitCode, .inr ⟨record, fun q other => ?_, ?_⟩⟩
    · simp [raised, List.mem_singleton.not.mp other]
    · simp [raised]

/-- Settles O58: fatal errors, waits and ended runs are all next states. -/
theorem everyStepAnswersANextState : Obligations.EveryStepAnswersANextState := exists_step_eq_next

/-! ### Console reads without an answer -/

/-- R301: a state that its step answers is what every number of steps answers. -/
theorem run_of_step_eq_self {s : State} (fixed : step s = .next s) (k : Nat) : Sys2Proof.core.run k s = .next s := by
  induction k with
  | zero => rfl
  | succ k ih => rw [run_succ k fixed, ih]

/-- R212: the host without an answer is silent. -/
theorem ConsoleInput.eq_silent_of_not_answers {c : ConsoleInput} (unanswered : ¬ c.answers) : c = ⟨[], .silent⟩ := by
  obtain ⟨bytes, tail⟩ := c
  obtain ⟨rfl, rfl⟩ : bytes = [] ∧ tail = .silent := by simpa [ConsoleInput.answers] using unanswered
  rfl

/-- R212, R276: the step of a console read that waits without an answer changes nothing. -/
theorem ReadService.step_eq_self {v : BitVec 8} {r : Routine} {prompt : List Byte} {echo : Option Byte → List Byte}
    (service : ReadService v r prompt echo) {s : State} (running : s.run = .running) (waiting : s.routine = some r)
    (unanswered : ¬ s.input.answers) : step s = .next s := by
  have wait := service.step_of_silent running (ConsoleInput.eq_silent_of_not_answers unanswered)
  rwa [State.setRoutine_of_eq waiting] at wait

/-- Settles O48: both console reads wait alike, and a wait that a step leaves is left by every number of steps. -/
theorem unansweredReadsWaitForEver : Obligations.UnansweredReadsWaitForEver := by
  rintro s running (waiting | waiting) unanswered
  · exact run_of_step_eq_self (getc_readService.step_eq_self running waiting unanswered)
  · exact run_of_step_eq_self (in_readService.step_eq_self running waiting unanswered)

end Sys2Proof.Machine

/-! PROOFS. The statement of 70_reset_and_hazards.md about the step (R302). -/

namespace Sys2Proof.Machine

open Sys2Proof

/-- Settles O57: the step of a ready machine runs the decoded fetch word on the advanced state (`State.ready.step_eq`);
the fetch word is the load at PC, and the advanced state is the write of PC + 1. -/
theorem stepRunsTheDecodedInstruction : Obligations.StepRunsTheDecodedInstruction := by
  intro s i ready decoded
  rw [ready.step_eq, s.fetchWord_eq, decoded, s.advancePc_eq]

end Sys2Proof.Machine

/-! PROOFS. The statement of 30_encoding.md section 2 that decoding undoes encoding. By `decode_eq_of_row` it comes down
to two facts: the word of an instruction matches the instruction's row, and its fields hold the operands. -/

namespace Sys2Proof

/-- R102 to R112: the word of an instruction matches its own row of the opcode table. -/
theorem encode_matches_row : ∀ i : Instr, encode i &&& i.rowMask = i.rowMatch
  | .br c o => Laws.EncodeMatchesRow.br c o
  | .addReg d a b => Laws.EncodeMatchesRow.addReg d a b
  | .addImm d a i => Laws.EncodeMatchesRow.addImm d a i
  | .ld d o => Laws.EncodeMatchesRow.ld d o
  | .st r o => Laws.EncodeMatchesRow.st r o
  | .jsr o => Laws.EncodeMatchesRow.jsr o
  | .jsrr b => Laws.EncodeMatchesRow.jsrr b
  | .andReg d a b => Laws.EncodeMatchesRow.andReg d a b
  | .andImm d a i => Laws.EncodeMatchesRow.andImm d a i
  | .ldr d b o => Laws.EncodeMatchesRow.ldr d b o
  | .str r b o => Laws.EncodeMatchesRow.str r b o
  | .rti => Laws.EncodeMatchesRow.rti
  | .not d a => Laws.EncodeMatchesRow.not d a
  | .ldi d o => Laws.EncodeMatchesRow.ldi d o
  | .sti r o => Laws.EncodeMatchesRow.sti r o
  | .jmp b => Laws.EncodeMatchesRow.jmp b
  | .res => Laws.EncodeMatchesRow.res
  | .lea d o => Laws.EncodeMatchesRow.lea d o
  | .trap v => Laws.EncodeMatchesRow.trap v

/-- R102 to R112: the fields of an instruction's word hold its operands. Each field lies whole in one of the parts
that `encode` joins, so its slice passes by the parts below and above it. -/
theorem Instr.withOperandsOf_encode (i : Instr) : i.withOperandsOf (encode i) = i := by
  cases i <;>
    simp (disch := decide) only [Instr.withOperandsOf, encode, fieldCond, fieldDR, fieldBase, fieldSR2, fieldImm5,
      fieldOffset6, fieldPcOffset9, fieldPcOffset11, fieldTrapvect8, BitVec.extractLsb'_append_eq_of_le,
      BitVec.extractLsb'_append_eq_of_add_le, BitVec.extractLsb'_eq_self, Nat.reduceSub, Reg.ofBits_toBits]

/-- Settles O1: the word of an instruction matches the instruction's row, so it decodes to the row's instruction with
the operands of its fields, which are the instruction's own. -/
theorem decodeOfEncodeIsTheInstruction : Obligations.DecodeOfEncodeIsTheInstruction := by
  intro i
  calc decode (encode i)
      = i.withOperandsOf (encode i) := decode_eq_of_row i (encode_matches_row i)
    _ = i := i.withOperandsOf_encode

end Sys2Proof
